-- ==== Sys2Proof/Word.lean ====
section
/-! DEFINITION. The words of the SAP-1 core: 8-bit cells and registers, 4-bit addresses, 4-bit opcodes
(spec/00_scope.md R5, R7: a value of these types is always representable in its declared width). -/
namespace Sys2Proof

/-- One memory cell, and the width of `A`, `B`, `OUT`, `IR` (R5 `WORD_BITS`, R29). -/
abbrev Byte := BitVec 8

/-- An address of one of the 16 cells, and the width of `PC`, `MAR` and the operand field (R5 `ADDR_BITS`). -/
abbrev Addr := BitVec 4

/-- A half byte that names no address: the opcode field (R5 `OPCODE_BITS`), or the ignored field of OUT and HLT. -/
abbrev Nibble := BitVec 4

end Sys2Proof
end

