-- ==== Sys2Proof/Config.lean ====
section
/-! DEFINITION. What the spec leaves open: the free value of the microstep counter, and the parameters of the
host's operations (spec/92_eei_decisions.md D4, D6; spec/50_host_interface.md R102, R107). -/
namespace Sys2Proof

/-- The value `t_state` holds after the `n`-th Step of a running core: any value in 0..3 (R19, D4).
DESIGN CHOICE, safe (log entry 1): no body, so nothing can be proved about which value it is. -/
opaque Config.freeTState : Nat → Fin 4

/-- Parameters of the host's operations, fixed when a machine is constructed (R22, R107); none is state of the core. -/
structure HostConfig where
  /-- A Step that executed an instruction returns a trace line (R86, R107); no default is stated. -/
  instructionTrace : Bool
  /-- Such a Step also emits one line per microstep T0 to T3 (R85, R107); no default is stated. -/
  microstepTrace : Bool
  /-- `MAX_STEPS`, the bound of a Run when the host gives none (R102, D6). -/
  maxSteps : Nat := 1000
  deriving DecidableEq, Repr

/-- Parameters of the assembler's text format. -/
structure AsmConfig where
  /-- The marker of an immediate operand, which the spec never names (R68, 91_not_in_source.md N9). -/
  immediateMarker : Option Char := none
  deriving DecidableEq, Repr

end Sys2Proof
end

