-- ==== Sys2Proof/Syntax.lean ====
section
/-! DEFINITION. The six instructions of the opcode map (spec/30_encoding.md R47, R50, opcode_table.json). -/
namespace Sys2Proof

/-- One constructor per row of spec/opcode_table.json. OUT and HLT keep the four bits the core ignores (R52),
so that an instruction says its whole byte. -/
inductive Instr where
  /-- Load the accumulator from the cell `addr` (R87). -/
  | lda (addr : Addr)
  /-- Add the cell `addr` to the accumulator (R89). -/
  | add (addr : Addr)
  /-- Subtract the cell `addr` from the accumulator (R90). -/
  | sub (addr : Addr)
  /-- Store the accumulator in the cell `addr` (R88). -/
  | sta (addr : Addr)
  /-- Copy the accumulator to the output register (R94). -/
  | out (ignored : Nibble)
  /-- Set the halt latch (R95). -/
  | hlt (ignored : Nibble)
  deriving DecidableEq, Repr

end Sys2Proof
end

