-- ==== Sys2Proof/WellFormed.lean ====
section
/-! DEFINITION. When a pair of numbers is an instruction of the one format (spec/30_encoding.md R47, R50, R51),
and the well-formedness of an instruction, which is that of its pair. -/
namespace Sys2Proof

/-- The two fields of the format `OP4_OPERAND4` as plain numbers, before any width is imposed (R47). -/
structure Fields where
  opcode  : Nat
  operand : Nat
  deriving DecidableEq, Repr

/-- The operand fits the 4-bit field (R47, R49). -/
def Fields.operandFits (f : Fields) : Bool := f.operand < 16

/-- The opcode fits the 4-bit field (R47). -/
def Fields.opcodeFits (f : Fields) : Bool := f.opcode < 16

/-- The opcode is none of the ten illegal values 0x0 and 0x5 to 0xD (R50, R51). -/
def Fields.opcodeLegal (f : Fields) : Bool := f.opcode != 0 && !(5 ≤ f.opcode && f.opcode ≤ 13)

/-- A pair that stands for an instruction. -/
def Fields.wellFormed (f : Fields) : Bool := f.operandFits && f.opcodeFits && f.opcodeLegal

/-- The pair of an instruction, by the rows of R50. -/
def Instr.fields : Instr → Fields
  | .lda addr => ⟨1, addr.toNat⟩
  | .add addr => ⟨2, addr.toNat⟩
  | .sub addr => ⟨3, addr.toNat⟩
  | .sta addr => ⟨4, addr.toNat⟩
  | .out ignored => ⟨14, ignored.toNat⟩
  | .hlt ignored => ⟨15, ignored.toNat⟩

/-- An instruction is well formed when its pair is. -/
def Instr.wellFormed (i : Instr) : Bool := i.fields.wellFormed

end Sys2Proof
end

