-- ==== Sys2Proof/Decode.lean ====
section
/-! DEFINITION. The width masks, the decoder (total on every byte, rejecting by name) and the encoder
(spec/00_scope.md R6, R8; spec/30_encoding.md R47 to R52). -/
namespace Sys2Proof

/-- `mask8(v) = v mod 256`, on unbounded integers (R6, R9). -/
def mask8 (v : Int) : Byte := BitVec.ofInt 8 v

/-- `mask4(v) = v mod 16`, on unbounded integers (R6, R9). -/
def mask4 (v : Int) : Addr := BitVec.ofInt 4 v

/-- `IR[7:4]` (R48). -/
def opcodeField (w : Byte) : Nibble := w.extractLsb' 4 4

/-- `IR[3:0]` (R48). -/
def operandField (w : Byte) : Addr := w.extractLsb' 0 4

/-- Why a byte is no instruction. -/
inductive DecodeReject where
  /-- The opcode field names no instruction (R51); the two values are those a DecodeError carries (R113). -/
  | illegalOpcode (opcode : Nibble) (byte : Byte)
  deriving DecidableEq, Repr

/-- The opcode map of R50: six opcodes with a meaning, ten illegal ones. Decode reads the byte only (R48). -/
def decode (w : Byte) : Except DecodeReject Instr :=
  match opcodeField w with
  | 0x1#4 => .ok (.lda (operandField w))
  | 0x2#4 => .ok (.add (operandField w))
  | 0x3#4 => .ok (.sub (operandField w))
  | 0x4#4 => .ok (.sta (operandField w))
  | 0xE#4 => .ok (.out (operandField w))
  | 0xF#4 => .ok (.hlt (operandField w))
  | op => .error (.illegalOpcode op w)

/-- The opcode of an instruction (R50). -/
def opcodeOf : Instr → Nibble
  | .lda _ => 0x1#4
  | .add _ => 0x2#4
  | .sub _ => 0x3#4
  | .sta _ => 0x4#4
  | .out _ => 0xE#4
  | .hlt _ => 0xF#4

/-- The low four bits of an instruction's byte (R47). -/
def operandOf : Instr → Nibble
  | .lda addr | .add addr | .sub addr | .sta addr => addr
  | .out ignored | .hlt ignored => ignored

/-- The byte of an instruction: opcode in bits 7:4, operand in bits 3:0 (R47). -/
def encode (i : Instr) : Byte := opcodeOf i ++ operandOf i

/-- The instruction the decoder reads from a word of the opcode table: one cell of 8 bits (R46); the bits
from `nbits` up are 0. -/
def decodeTableWord (nbits w : Nat) : Option Instr :=
  match decode (mask8 ((w % 2 ^ nbits : Nat) : Int)) with
  | .ok i => some i
  | .error _ => none

end Sys2Proof
end

