-- ==== Sys2Proof/Machine/State.lean ====
section
/-! DEFINITION. The state record of the core (spec/10_state.md R10), its value at power-on and reset
(R26, R27), and the two ways a Step can stop. -/
namespace Sys2Proof.Machine

/-- The 16 cells, sparse: the cells that differ from what an unlisted address reads as, addresses rising. -/
abbrev Memory := List Host.Cell

/-- The nine items of R10, and one counter of the model's own. -/
structure State where
  /-- The memory array, program and data (R11, R28). -/
  mem    : Memory
  /-- `A`, the accumulator (R12). -/
  a      : Byte
  /-- `B`, the second operand of ADD and SUB (R13). -/
  b      : Byte
  /-- `OUT`, the output register (R14). -/
  out    : Byte
  /-- `IR`, the byte last fetched (R15). -/
  ir     : Byte
  /-- `PC`, the address the next Step fetches from (R16). -/
  pc     : Addr
  /-- `MAR`, the address last selected (R17). -/
  mar    : Addr
  /-- The halt latch (R18). -/
  halted : Bool
  /-- `t_state`, the microstep counter 0..3, read by nothing (R19). -/
  tState : Fin 4
  /-- The model's own: how many free values of `t_state` have been drawn (log entry 1). -/
  draws  : Nat
  deriving DecidableEq, Repr

/-- Power-on and Reset of a fresh machine: every cell and every register 0, running (R26, R27).
`draws` is 0 by DESIGN CHOICE (log entry 1). -/
def State.reset : State :=
  { mem := [], a := 0, b := 0, out := 0, ir := 0, pc := 0, mar := 0, halted := false, tState := 0, draws := 0 }

/-- The one fault of the core (R111, R116). -/
inductive Fault where
  /-- DecodeError, raised by the execute phase of a Step whose opcode names no instruction (R112). It carries the
  opcode, the full `IR` byte (R113) and the state the Step leaves (R114), from which the host may go on (R115).
  Stopping is safe; that the fetch is kept in `left` is the spec's reading D2, unsafe if wrong (log entry 3). -/
  | decodeError (opcode : Nibble) (ir : Byte) (left : State)
  deriving DecidableEq, Repr

/-- A refusal by the model, not by the machine. -/
inductive Refusal where
  /-- An instruction without a meaning yet, raised by exec only; safe. Every instruction has its meaning, so
  nothing raises it. -/
  | notModelled (mnemonic : String)
  deriving DecidableEq, Repr

/-- The outcome of a Step or of an instruction's execute phase. -/
abbrev Result := Host.Outcome State Fault Refusal

end Sys2Proof.Machine
end

