-- ==== Sys2Proof/Machine/Ops.lean ====
section
/-! DEFINITION. The named operations every instruction is made of: the memory array (spec/20_memory.md R28 to R38),
the register writes, the fetch (spec/40_instruction_cycle.md R77), raising DecodeError and going on after it
(spec/60_exceptions.md R112 to R115), Reset and LoadProgram (spec/50_host_interface.md R97, R98). -/
namespace Sys2Proof.Machine

/-- What a cell reads as when nothing is listed for it: 0, the content at power-on (R27). -/
def unlistedByte : Byte := 0

/-- The byte listed for an address, the unlisted byte if none is. -/
def Memory.lookup : Memory → Nat → Byte
  | [], _ => unlistedByte
  | (k, v) :: rest, n => if k = n then v else Memory.lookup rest n

/-- `memory[addr]` (R11): a read has no side effect and cannot fault (R36, R38). -/
def Memory.read (m : Memory) (addr : Addr) : Byte := Memory.lookup m addr.toNat

/-- The listing without an address. -/
def Memory.erase : Memory → Nat → Memory
  | [], _ => []
  | (k, v) :: rest, n => if k = n then Memory.erase rest n else (k, v) :: Memory.erase rest n

/-- The listing with a byte put in at its place in the rising order of addresses. -/
def Memory.insert : Memory → Nat → Byte → Memory
  | [], n, v => [(n, v)]
  | (k, u) :: rest, n, v =>
    if n < k then (n, v) :: (k, u) :: rest
    else if n = k then (n, v) :: rest
    else (k, u) :: Memory.insert rest n v

/-- `memory[addr] <- v`, every other cell unchanged (R30); the listing stays canonical. -/
def Memory.write (m : Memory) (addr : Addr) (v : Byte) : Memory :=
  if v = unlistedByte then Memory.erase m addr.toNat else Memory.insert m addr.toNat v

/-- Every listed address is at least `lo` and below 16, the addresses rise, and no listed byte is the unlisted one. -/
def Memory.wfFrom : Nat → Memory → Bool
  | _, [] => true
  | lo, (k, v) :: rest => decide (lo ≤ k) && decide (k < 16) && decide (v ≠ unlistedByte) && Memory.wfFrom (k + 1) rest

/-- The canonical form of the 16 cells: equal memories are equal data. -/
def Memory.wf (m : Memory) : Bool := Memory.wfFrom 0 m

/-- `MemRead(addr, 1)`: the address is reduced modulo 16 first (R9, R30). -/
def memRead (addr : Nat) (m : Memory) : Byte := Memory.read m (mask4 addr)

/-- `MemWrite(addr, 1, v)`: address modulo 16, value modulo 256 (R9, R30). -/
def memWrite (addr v : Nat) (m : Memory) : Memory := Memory.write m (mask4 addr) (mask8 v)

/-! Writes of one item of the record (R9 `X <- v`). -/

def State.setMem (s : State) (m : Memory) : State := { s with mem := m }
def State.setA (s : State) (v : Byte) : State := { s with a := v }
def State.setB (s : State) (v : Byte) : State := { s with b := v }
def State.setOut (s : State) (v : Byte) : State := { s with out := v }
def State.setIr (s : State) (v : Byte) : State := { s with ir := v }
def State.setPc (s : State) (v : Addr) : State := { s with pc := v }
def State.setMar (s : State) (v : Addr) : State := { s with mar := v }
def State.setHalted (s : State) (v : Bool) : State := { s with halted := v }

/-- The microsteps of one Step leave `t_state` at a value nothing states (R19, D4): draw the next free one. -/
def State.drawTState (s : State) : State :=
  { s with tState := Config.freeTState s.draws, draws := s.draws + 1 }

/-- The cell `MAR` selects: every access of the core goes through `MAR` (R17). -/
def State.cellAtMar (s : State) : Byte := Memory.read s.mem s.mar

/-- Store into the cell `MAR` selects. -/
def State.storeAtMar (s : State) (v : Byte) : State := s.setMem (Memory.write s.mem s.mar v)

/-- `PC + 1` modulo 16, 15 going to 0 (R77, R83). -/
def nextAddr (pc : Addr) : Addr := mask4 ((pc.toNat : Int) + 1)

/-- The byte a Step of a running core fetches. -/
def State.byteAtPc (s : State) : Byte := Memory.read s.mem s.pc

/-- Fetch: `MAR <- PC; IR <- memory[MAR]; PC <- PC + 1`, in that order (R77). `t_state` is drawn here, once a Step. -/
def fetch (s : State) : State :=
  let selected := s.setMar s.pc
  let loaded := selected.setIr selected.cellAtMar
  (loaded.setPc (nextAddr loaded.pc)).drawTState

/-- Raising DecodeError: there is no entry inside the machine (R121), so nothing is saved and control goes to the
host with the opcode, the `IR` byte (R113) and the state as fetch left it (R114). -/
def raiseDecodeError (opcode : Nibble) (s : State) : Result := .fault (.decodeError opcode s.ir s)

/-- Going on after a fault: there is no return instruction (R123); the host's next Step starts from the state the
fault left, `halted` still 0 (R115). -/
def afterFault : Fault → State
  | .decodeError _ _ left => left

/-- The host's `Reset()`: every register, `halted` and `t_state` to 0, memory untouched (R26, R97). The model's own
counter `draws` is kept, so that a later draw stays free of the earlier ones. -/
def resetOp (s : State) : State :=
  { mem := s.mem, a := 0, b := 0, out := 0, ir := 0, pc := 0, mar := 0, halted := false, tState := 0, draws := s.draws }

/-- The host's `LoadProgram(pairs)`: each pair in order, a later one overwriting an earlier one (R98). -/
def loadProgram : List (Nat × Nat) → State → State
  | [], s => s
  | (address, byte) :: rest, s => loadProgram rest (s.setMem (memWrite address byte s.mem))

end Sys2Proof.Machine
end

