-- ==== Sys2Proof/Machine/Operands.lean ====
section
/-! DEFINITION. The one operand form: the 4-bit operand is the absolute address of a cell (spec/30_encoding.md R49,
spec/90_conflicts.md C7). -/
namespace Sys2Proof.Machine

/-- The effective address is the operand as it stands: not extended, scaled or added to anything (R49). -/
def effectiveAddress (operand : Addr) : Addr := operand

/-- `MAR <- operand`: select the cell the operand names. -/
def selectCell (operand : Addr) (s : State) : State := s.setMar (effectiveAddress operand)

/-- `MAR <- operand; B <- MemRead(MAR, 1)`: the common beginning of ADD and SUB (R89, R90). -/
def loadB (operand : Addr) (s : State) : State :=
  let selected := selectCell operand s
  selected.setB selected.cellAtMar

end Sys2Proof.Machine
end

