-- ==== Sys2Proof/Machine/Flags.lean ====
section
/-! DEFINITION. The arithmetic unit: two operations, computed on unbounded integers and narrowed at the end
(spec/00_scope.md R6, R9; spec/42_arithmetic.md R89 to R93). There are no flags (spec/10_state.md R20): the carry out
of bit 7 and the borrow are dropped by the mask and recorded nowhere, so this file computes none. -/
namespace Sys2Proof.Machine

/-- `(A + B) mod 256` (R89, R91). -/
def aluAdd (a b : Byte) : Byte := mask8 ((a.toNat : Int) + b.toNat)

/-- `(A - B) mod 256`, a value in 0..255 (R90, R91). -/
def aluSub (a b : Byte) : Byte := mask8 ((a.toNat : Int) - b.toNat)

end Sys2Proof.Machine
end

