-- ==== Sys2Proof/Machine/Arithmetic.lean ====
section
/-! DEFINITION. The execute phases of ADD and SUB (spec/42_arithmetic.md). Fetch and decode have run. -/
namespace Sys2Proof.Machine

/-- ADD: `MAR <- operand; B <- MemRead(MAR, 1); A <- A + B`, with the old `A` and the new `B` (R89). -/
def execAdd (addr : Addr) (s : State) : Result :=
  let loaded := loadB addr s
  .next (loaded.setA (aluAdd loaded.a loaded.b))

/-- SUB: `MAR <- operand; B <- MemRead(MAR, 1); A <- A - B`, with the old `A` and the new `B` (R90). -/
def execSub (addr : Addr) (s : State) : Result :=
  let loaded := loadB addr s
  .next (loaded.setA (aluSub loaded.a loaded.b))

end Sys2Proof.Machine
end

