-- ==== Sys2Proof/Machine/LoadStore.lean ====
section
/-! DEFINITION. The execute phases of LDA and STA (spec/41_load_store.md). Fetch and decode have run. -/
namespace Sys2Proof.Machine

/-- LDA: `MAR <- operand; A <- MemRead(MAR, 1)` (R87). -/
def execLda (addr : Addr) (s : State) : Result :=
  let selected := selectCell addr s
  .next (selected.setA selected.cellAtMar)

/-- STA: `MAR <- operand; MemWrite(MAR, 1, A)` (R88). -/
def execSta (addr : Addr) (s : State) : Result :=
  let selected := selectCell addr s
  .next (selected.storeAtMar selected.a)

end Sys2Proof.Machine
end

