-- ==== Sys2Proof/Machine/OutputHalt.lean ====
section
/-! DEFINITION. The execute phases of OUT and HLT (spec/43_output_halt.md). Neither uses its operand field (R52). -/
namespace Sys2Proof.Machine

/-- OUT: `OUT <- A` (R94). -/
def execOut (s : State) : Result := .next (s.setOut s.a)

/-- HLT: `halted <- 1` (R95). -/
def execHlt (s : State) : Result := .next (s.setHalted true)

end Sys2Proof.Machine
end

