-- ==== Sys2Proof/Machine/Dispatch.lean ====
section
/-! DEFINITION. The execute phase, dispatched on the instruction (spec/40_instruction_cycle.md R79). The state is the
one fetch left. -/
namespace Sys2Proof.Machine

def exec (i : Instr) (s : State) : Host.Outcome State Fault Refusal :=
  match i with
  | .lda addr => Sys2Proof.Machine.execLda addr s
  | .add addr => Sys2Proof.Machine.execAdd addr s
  | .sub addr => Sys2Proof.Machine.execSub addr s
  | .sta addr => Sys2Proof.Machine.execSta addr s
  | .out _ => Sys2Proof.Machine.execOut s
  | .hlt _ => Sys2Proof.Machine.execHlt s

end Sys2Proof.Machine
end

