-- ==== Sys2Proof/Machine/Step.lean ====
section
/-! DEFINITION. The Step: fetch, decode, execute (spec/40_instruction_cycle.md R75). -/
namespace Sys2Proof.Machine

/-- One Step (R75). A halted core changes nothing (R76); a running one fetches (R77), decodes `IR` (R78) and runs the
instruction (R79), or raises DecodeError (R112). -/
def step (s : State) : Host.Outcome State Fault Refusal :=
  if s.halted then .next s
  else
    let fetched := fetch s
    match decode fetched.ir with
    | .ok i => exec i fetched
    | .error (.illegalOpcode opcode _) => raiseDecodeError opcode fetched

/-- `s` with the byte of a table word in the cell `PC` names, and the core running, so that the next step runs it. -/
def State.withFetchWord (s : State) (nbits w : Nat) : State :=
  (s.setMem (memWrite s.pc.toNat (w % 2 ^ nbits) s.mem)).setHalted false

end Sys2Proof.Machine
end

