-- ==== Sys2Proof/Machine/HostInterface.lean ====
section
/-! DEFINITION. The host's operations around the Step (spec/50_host_interface.md R96 to R108): what a Step reports, the
bounded Run, the observer's log of outputs, and a session of operations with its sticky record of the first fault
(spec/60_exceptions.md R131). Power-on is `State.reset`; `resetOp` and `loadProgram` are in Ops. -/
namespace Sys2Proof.Machine

/-- What the host learns from one Step (R75, R100). -/
inductive StepReport where
  /-- The core was halted; not an error (R76, R117). No trace line is produced. -/
  | noInstruction
  /-- One instruction ran: whether a trace line was returned, and the microsteps that emitted a line (R86, R107). -/
  | executed (traceLine : Bool) (microstepLines : List (Fin 4))
  /-- DecodeError with its two values (R113). -/
  | fault (opcode : Nibble) (ir : Byte)
  /-- The model has no meaning for the instruction; no Step reports it. -/
  | refused (reason : Refusal)
  deriving DecidableEq, Repr

/-- What the host is told of a fault: its two values (R113). -/
def faultReport : Fault → StepReport
  | .decodeError opcode ir _ => .fault opcode ir

/-- The report of a Step that executed an instruction (R107: neither flag affects the state). -/
def executedReport (cfg : HostConfig) : StepReport :=
  .executed cfg.instructionTrace (if cfg.microstepTrace then [0, 1, 2, 3] else [])

/-- The host's `Step()`: the state it leaves and its report (R100). -/
def hostStep (cfg : HostConfig) (s : State) : State × StepReport :=
  if s.halted then (s, .noInstruction)
  else
    match step s with
    | .next t => (t, executedReport cfg)
    | .fault f => (afterFault f, faultReport f)
    | .refused r => (s, .refused r)

/-- How a Run ends (R101): by HLT or its bound, which is no error (R104), or by a fault (R103). -/
inductive RunEnd where
  | done
  | fault (opcode : Nibble) (ir : Byte)
  | refused (reason : Refusal)
  deriving DecidableEq, Repr

/-- What a Run leaves: the state, the reports of its Steps in order, and how it ended. DESIGN CHOICE, log entry 8: a Run
that ends by a DecodeError hands over the reports of its earlier Steps too, trace lines and all, where the source is
silent and the spec models none (R103, D7). -/
structure RunResult where
  state   : State
  reports : List StepReport
  ending  : RunEnd
  deriving DecidableEq, Repr

/-- The host's `Run(maxSteps)` (R101): Steps while the core is running, at most `maxSteps`, ending at once on a fault
(R103, D7). That the reports before a fault are kept is the model's choice (log entry 8). -/
def hostRun (cfg : HostConfig) : Nat → State → RunResult
  | 0, s => ⟨s, [], .done⟩
  | maxSteps + 1, s =>
    if s.halted then ⟨s, [], .done⟩
    else
      match hostStep cfg s with
      | (t, .fault opcode ir) => ⟨t, [.fault opcode ir], .fault opcode ir⟩
      | (t, .refused r) => ⟨t, [.refused r], .refused r⟩
      | (t, report) =>
        let rest := hostRun cfg maxSteps t
        ⟨rest.state, report :: rest.reports, rest.ending⟩

/-- `Run` with an optional bound: `MAX_STEPS` when the host gives none (R102). -/
def hostRunBounded (cfg : HostConfig) (maxSteps : Option Nat) (s : State) : RunResult :=
  hostRun cfg (maxSteps.getD cfg.maxSteps) s

/-- `k` Steps, stopping at the first fault: the run of a program in the sense of R147. -/
def runSteps : Nat → State → Result
  | 0, s => .next s
  | k + 1, s =>
    match step s with
    | .next t => runSteps k t
    | .fault f => .fault f
    | .refused r => .refused r

/-- The observer's own log of outputs over at most `k` Steps: `A` at each Step whose `IR[7:4]` is 0xE (R106).
It is no state of the core. -/
def outputLog : Nat → State → List Byte
  | 0, _ => []
  | k + 1, s =>
    if s.halted then []
    else
      match step s with
      | .next t => if opcodeField t.ir = 0xE#4 then t.a :: outputLog k t else outputLog k t
      | .fault _ => []
      | .refused _ => []

/-- The operations a host can issue on a machine that exists (R96); arguments are natural numbers (R99). -/
inductive HostOp where
  | reset
  | loadProgram (pairs : List (Nat × Nat))
  | step
  | run (maxSteps : Option Nat)
  deriving DecidableEq, Repr

/-- A machine with the record, kept outside its state, of the first fault since power-on or Reset (R131). -/
structure Session where
  state      : State
  firstFault : Option (Nibble × Byte)
  deriving DecidableEq, Repr

/-- A machine just created (R27). -/
def Session.powerOn : Session := ⟨State.reset, none⟩

/-- Record a fault, if none is recorded yet. -/
def recordFault (old : Option (Nibble × Byte)) (opcode : Nibble) (ir : Byte) : Option (Nibble × Byte) :=
  match old with
  | some first => some first
  | none => some (opcode, ir)

/-- One operation of the host, whole before the next begins (R41, R108). -/
def applyOp (cfg : HostConfig) (op : HostOp) (m : Session) : Session :=
  match op with
  | .reset => ⟨resetOp m.state, none⟩
  | .loadProgram pairs => ⟨loadProgram pairs m.state, m.firstFault⟩
  | .step =>
    match hostStep cfg m.state with
    | (t, .fault opcode ir) => ⟨t, recordFault m.firstFault opcode ir⟩
    | (t, _) => ⟨t, m.firstFault⟩
  | .run maxSteps =>
    let r := hostRunBounded cfg maxSteps m.state
    match r.ending with
    | .fault opcode ir => ⟨r.state, recordFault m.firstFault opcode ir⟩
    | _ => ⟨r.state, m.firstFault⟩

/-- A sequence of operations in the one total order of R41. -/
def applyOps (cfg : HostConfig) : List HostOp → Session → Session
  | [], m => m
  | op :: rest, m => applyOps cfg rest (applyOp cfg op m)

end Sys2Proof.Machine
end

