-- ==== Sys2Proof/Machine/Assembler.lean ====
section
/-! DEFINITION. The assembler's translation contract (spec/30_encoding.md section 3, R56 to R74): two passes from lines
of text to the bytes LoadProgram takes, and the boot sequence that loads them (spec/70_reset_and_hazards.md R137).
Text is a list of characters. -/
namespace Sys2Proof.Machine

abbrev Text := List Char

/-- Why an AssemblyError was raised; the spec has one error kind (R66). -/
inductive AsmReason where
  /-- The leading token is no mnemonic, directive or label (R66). -/
  | unknownToken
  /-- The operand is neither a label nor an integer (R62). -/
  | badOperand
  /-- The operand carries the immediate marker (R68). -/
  | immediateOperand
  /-- An operand or a `.BYTE` value is missing (R71, R74). -/
  | missingOperand
  /-- More tokens than the line may hold (R58, R74). -/
  | extraOperand
  /-- The value of `.BYTE` is no integer literal (R74). -/
  | badByteValue
  /-- The name before the colon is no legal label (R74). -/
  | badLabel
  /-- The label is declared a second time (R74). -/
  | duplicateLabel
  /-- The label would be bound to a value above 15 (R59, 90_conflicts.md C5). -/
  | labelOutOfRange
  /-- A seventeenth slot (R72). -/
  | tooManySlots
  deriving DecidableEq, Repr

/-- The assembler's one error; fatal, no byte is produced. For an unrecognized leading token `token` is that token (R66).
DESIGN CHOICE, log entry 26: what `token` is for every other reason, which the spec does not say. -/
structure AssemblyError where
  reason : AsmReason
  token  : Text
  deriving DecidableEq, Repr

/-- The six mnemonics (R60). -/
inductive Mnemonic where
  | lda | add | sub | sta | out | hlt
  deriving DecidableEq, Repr

/-- The opcode column of R60. -/
def Mnemonic.opcode : Mnemonic → Nat
  | .lda => 0x1
  | .add => 0x2
  | .sub => 0x3
  | .sta => 0x4
  | .out => 0xE
  | .hlt => 0xF

/-- The column "takes an operand" of R60. -/
def Mnemonic.takesOperand : Mnemonic → Bool
  | .lda | .add | .sub | .sta => true
  | .out | .hlt => false

/-- Mnemonics are case-insensitive (R64). -/
def readMnemonic (token : Text) : Option Mnemonic :=
  match token.map Char.toUpper with
  | ['L', 'D', 'A'] => some .lda
  | ['A', 'D', 'D'] => some .add
  | ['S', 'U', 'B'] => some .sub
  | ['S', 'T', 'A'] => some .sta
  | ['O', 'U', 'T'] => some .out
  | ['H', 'L', 'T'] => some .hlt
  | _ => none

/-- White space between tokens and around a line. -/
def isBlank (c : Char) : Bool := c.isWhitespace

/-- Everything from the comment marker on is dropped (R57). -/
def stripComment (line : Text) : Text := line.takeWhile (· != ';')

/-- White space at both ends is dropped (R57). -/
def trim (line : Text) : Text := ((line.dropWhile isBlank).reverse.dropWhile isBlank).reverse

/-- The preprocessing of one line (R57). -/
def cleanLine (line : Text) : Text := trim (stripComment line)

/-- The preprocessing of a program: comments, white space, then blank lines (R57). -/
def cleanLines (lines : List Text) : List Text := (lines.map cleanLine).filter (· != [])

/-- The tokens of a line, `current` the reversed token being read. -/
def tokensFrom : Text → Text → List Text
  | current, [] => if current = [] then [] else [current.reverse]
  | current, c :: rest =>
    if isBlank c then
      if current = [] then tokensFrom [] rest else current.reverse :: tokensFrom [] rest
    else tokensFrom (c :: current) rest

def tokens (line : Text) : List Text := tokensFrom [] line

/-- What pass 1 records for one slot: a data directive or a mnemonic, with the tokens after it (R59). -/
inductive Item where
  | byte (args : List Text)
  | instr (m : Mnemonic) (args : List Text)
  deriving DecidableEq, Repr

/-- `.BYTE`, recognised in upper case (R74). -/
def byteDirective : Text := ['.', 'B', 'Y', 'T', 'E']

/-- A line ending in a colon declares a label (R58, R59). DESIGN CHOICE, log entry 17: the test comes before the one for
a mnemonic, so a line such as `OUT x:` is a label line by R59's words, and `legalLabel` refuses its name; the grammar
after R74 and decision D19 would let it be read as OUT with an ignored token. -/
def isLabelLine (line : Text) : Bool := line.getLast? == some ':'

/-- A legal label: a non-empty token without white space, `:` or `;`, not spelled like a mnemonic (R74). -/
def legalLabel (name : Text) : Bool :=
  name != [] && name.all (fun c => !isBlank c && c != ':' && c != ';') && (readMnemonic name).isNone

/-- A line that is no label: its leading token names a directive or a mnemonic, or is an error that names it (R59, R66).
DESIGN CHOICE, log entry 26: a line without a token, which cleaning leaves none of, would be named whole. -/
def readItem (line : Text) : Except AssemblyError Item :=
  match tokens line with
  | [] => .error ⟨.unknownToken, line⟩
  | token :: args =>
    if token = byteDirective then .ok (.byte args)
    else
      match readMnemonic token with
      | some m => .ok (.instr m args)
      | none => .error ⟨.unknownToken, token⟩

/-- The label table: names with the slot they are bound to, 0..15 (R59). -/
abbrev LabelTable := List (Text × Addr)

/-- The slot a name is bound to; labels are case-sensitive (R64). -/
def findLabel (labels : LabelTable) (name : Text) : Option Addr :=
  match labels with
  | [] => none
  | (n, slot) :: rest => if n = name then some slot else findLabel rest name

/-- Pass 1 (R59) over cleaned lines, `slot` the running program counter and `labels` the table so far. DESIGN CHOICE, log
entry 26: the three errors of a label line name the label without its colon, a seventeenth slot the whole line. -/
def layoutFrom (slot : Nat) (labels : LabelTable) : List Text → Except AssemblyError (List Item × LabelTable)
  | [] => .ok ([], labels)
  | line :: rest =>
    if isLabelLine line then
      let name := line.dropLast
      if !legalLabel name then .error ⟨.badLabel, name⟩
      else if (findLabel labels name).isSome then .error ⟨.duplicateLabel, name⟩
      else if 16 ≤ slot then .error ⟨.labelOutOfRange, name⟩
      else layoutFrom slot (labels ++ [(name, mask4 slot)]) rest
    else
      match readItem line with
      | .error e => .error e
      | .ok item =>
        if 16 ≤ slot then .error ⟨.tooManySlots, line⟩
        else
          match layoutFrom (slot + 1) labels rest with
          | .error e => .error e
          | .ok (items, table) => .ok (item :: items, table)

/-- The value of a run of digits, `acc` the value so far. -/
def digitsFrom (base : Nat) (digit : Char → Option Nat) : Nat → Text → Option Nat
  | acc, [] => some acc
  | acc, c :: rest =>
    match digit c with
    | some d => digitsFrom base digit (acc * base + d) rest
    | none => none

def decimalDigit (c : Char) : Option Nat :=
  if 48 ≤ c.toNat ∧ c.toNat ≤ 57 then some (c.toNat - 48) else none

def hexDigit (c : Char) : Option Nat :=
  if 48 ≤ c.toNat ∧ c.toNat ≤ 57 then some (c.toNat - 48)
  else if 65 ≤ c.toNat ∧ c.toNat ≤ 70 then some (c.toNat - 55)
  else if 97 ≤ c.toNat ∧ c.toNat ≤ 102 then some (c.toNat - 87)
  else none

/-- An unsigned integer literal: decimal digits, or `0x` or `0X` and hexadecimal digits (R70, R74). -/
def readLiteral (token : Text) : Option Nat :=
  match token with
  | [] => none
  | '0' :: 'x' :: d :: rest => digitsFrom 16 hexDigit 0 (d :: rest)
  | '0' :: 'X' :: d :: rest => digitsFrom 16 hexDigit 0 (d :: rest)
  | digits => digitsFrom 10 decimalDigit 0 digits

/-- Whether a token begins with the immediate marker, if there is one (R61, R68). -/
def isImmediate (cfg : AsmConfig) (token : Text) : Bool :=
  match cfg.immediateMarker with
  | none => false
  | some marker => token.head? == some marker

/-- Pass 2, resolution: a label first, else an integer literal (R62); an immediate is refused (R68). DESIGN CHOICE, log
entry 26: both errors name the operand token. -/
def resolveOperand (cfg : AsmConfig) (labels : LabelTable) (token : Text) : Except AssemblyError Nat :=
  if isImmediate cfg token then .error ⟨.immediateOperand, token⟩
  else
    match findLabel labels token with
    | some slot => .ok slot.toNat
    | none =>
      match readLiteral token with
      | some n => .ok n
      | none => .error ⟨.badOperand, token⟩

/-- `opcode << 4`, with the address masked to 4 bits in the low half (R63). -/
def emit (m : Mnemonic) (address : Nat) : Byte := mask8 ((m.opcode * 16 + address % 16 : Nat) : Int)

/-- Pass 2, encoding of one slot (R63). The tokens after OUT and HLT are ignored, unresolved (R74). DESIGN CHOICE, log
entry 26: a missing operand names the empty text, a missing value `.BYTE`, a value that is no literal that token, and
surplus tokens the second of them. -/
def encodeItem (cfg : AsmConfig) (labels : LabelTable) : Item → Except AssemblyError Byte
  | .byte [] => .error ⟨.missingOperand, byteDirective⟩
  | .byte [token] =>
    match readLiteral token with
    | some n => .ok (mask8 (n : Int))
    | none => .error ⟨.badByteValue, token⟩
  | .byte (_ :: extra :: _) => .error ⟨.extraOperand, extra⟩
  | .instr m args =>
    if m.takesOperand then
      match args with
      | [] => .error ⟨.missingOperand, []⟩
      | [token] =>
        match resolveOperand cfg labels token with
        | .ok address => .ok (emit m address)
        | .error e => .error e
      | _ :: extra :: _ => .error ⟨.extraOperand, extra⟩
    else .ok (emit m 0)

/-- Pass 2 over all slots, in order. -/
def encodeItems (cfg : AsmConfig) (labels : LabelTable) : List Item → Except AssemblyError (List Byte)
  | [] => .ok []
  | item :: rest =>
    match encodeItem cfg labels item with
    | .error e => .error e
    | .ok w =>
      match encodeItems cfg labels rest with
      | .error e => .error e
      | .ok ws => .ok (w :: ws)

/-- The Assembled Program: its bytes, one a slot, and the resolved labels (R56). -/
structure AssembledProgram where
  bytes  : List Byte
  labels : LabelTable
  deriving DecidableEq, Repr

/-- The two passes (R56, R59, R62, R63). -/
def assemble (cfg : AsmConfig) (lines : List Text) : Except AssemblyError AssembledProgram :=
  match layoutFrom 0 [] (cleanLines lines) with
  | .error e => .error e
  | .ok (items, labels) =>
    match encodeItems cfg labels items with
    | .error e => .error e
    | .ok bytes => .ok ⟨bytes, labels⟩

/-- The pairs LoadProgram takes: byte `i` at address `i` (R67), counted from `slot`. -/
def slotPairs (slot : Nat) : List Byte → List (Nat × Nat)
  | [] => []
  | w :: rest => (slot, w.toNat) :: slotPairs (slot + 1) rest

/-- The boot sequence on a machine: load the assembled bytes from address 0, then Run (R137). -/
def bootOps (program : AssembledProgram) (maxSteps : Option Nat) : List HostOp :=
  [.loadProgram (slotPairs 0 program.bytes), .run maxSteps]

end Sys2Proof.Machine
end

