-- ==== Sys2Proof/Safety.lean ====
section
/-! DEFINITION. What a run's end is (spec/70_reset_and_hazards.md R147, spec/60_exceptions.md R131), and the invariant of
the reachable states. -/
namespace Sys2Proof.Machine

/-- The opcode of the byte the next Step of a running core fetches. -/
def State.opcodeAtPc (s : State) : Nibble := opcodeField s.byteAtPc

/-- The operand of that byte. -/
def State.operandAtPc (s : State) : Addr := operandField s.byteAtPc

/-- The cell that operand names. -/
def State.operandCell (s : State) : Byte := Memory.read s.mem s.operandAtPc

/-- Two states read alike in every cell. -/
def SameCells (s t : State) : Prop := ∀ x : Addr, Memory.read t.mem x = Memory.read s.mem x

/-- The run halts in exactly `k` Steps, in `t`, with no fault on the way: the only successful end (R131, R147).
DESIGN CHOICE, log entry 27: a run whose start state is already halted counts as halting in 0 Steps, in that state,
though none of its Steps executes HLT. -/
def HaltsAfter (k : Nat) (s t : State) : Prop :=
  runSteps k s = .next t ∧ t.halted = true ∧ ∀ j, j < k → ∃ u, runSteps j s = .next u ∧ u.halted = false

/-- The run faults: `k` Steps complete and the next one returns the fault (R147). -/
def FaultsAfter (k : Nat) (s : State) (f : Fault) : Prop :=
  ∃ u, runSteps k s = .next u ∧ step u = .fault f

/-- The run does neither: the program runs for ever (R83, R147). -/
def RunsForever (s : State) : Prop :=
  ∀ k, ∃ t, runSteps k s = .next t ∧ t.halted = false

/-- What holds of every reachable state: memory is canonical (the model's form of memory, DESIGN CHOICE, log entry 9),
and a halted core holds a HLT byte in `IR`, fetched from the address in `MAR`, the one before `PC` (R18, R81, R84). -/
def State.Inv (s : State) : Prop :=
  Memory.wf s.mem = true ∧ (s.halted = true → opcodeField s.ir = 0xF#4 ∧ s.pc = s.mar + 1)

end Sys2Proof.Machine
end

