-- ==== Sys2Proof/Certificates/Slice0/Obligations.lean ====
section
/-! DEFINITION. The statements for the provers, in the order of the spec's files. Where a statement says what an
instruction leaves, the two fields that carry the microstep counter (`tState`, `draws`) are not mentioned: the spec
states no value for `t_state` after a Step (spec/10_state.md R19, log entry 1). -/

open Sys2Proof Sys2Proof.Machine

/-! ### Encoding (spec/30_encoding.md) -/

/-- R48: the two fields of a byte, as `v div 16` and `v mod 16`. -/
def Obligations.OpcodeAndOperandFields : Prop :=
  ∀ w : Byte, (opcodeField w).toNat = w.toNat / 16 ∧ (operandField w).toNat = w.toNat % 16

/-- R50: the complete map of the 16 opcode values, for every operand. -/
def Obligations.OpcodeMapIsComplete : Prop :=
  ∀ op operand : Nibble,
    (op ++ operand : Byte).toNat = op.toNat * 16 + operand.toNat ∧
    decode (op ++ operand) =
      if op = 0x1#4 then .ok (.lda operand)
      else if op = 0x2#4 then .ok (.add operand)
      else if op = 0x3#4 then .ok (.sub operand)
      else if op = 0x4#4 then .ok (.sta operand)
      else if op = 0xE#4 then .ok (.out operand)
      else if op = 0xF#4 then .ok (.hlt operand)
      else .error (.illegalOpcode op (op ++ operand))

/-- All the words of spec/95_test_vectors.md V1 to V10 decode as that table says. -/
def Obligations.SampleWordsDecode : Prop :=
  decode 0x10#8 = .ok (.lda 0) ∧ decode 0x1F#8 = .ok (.lda 15) ∧ decode 0x2A#8 = .ok (.add 10) ∧
  decode 0x30#8 = .ok (.sub 0) ∧ decode 0x4F#8 = .ok (.sta 15) ∧ decode 0xE0#8 = .ok (.out 0) ∧
  decode 0xEF#8 = .ok (.out 15) ∧ decode 0xF0#8 = .ok (.hlt 0) ∧ decode 0xFF#8 = .ok (.hlt 15) ∧
  decode 0x00#8 = .error (.illegalOpcode 0x0 0x00) ∧ decode 0x0F#8 = .error (.illegalOpcode 0x0 0x0F) ∧
  decode 0x50#8 = .error (.illegalOpcode 0x5 0x50) ∧ decode 0x5F#8 = .error (.illegalOpcode 0x5 0x5F) ∧
  decode 0x9C#8 = .error (.illegalOpcode 0x9 0x9C) ∧ decode 0xD0#8 = .error (.illegalOpcode 0xD 0xD0) ∧
  decode 0xDF#8 = .error (.illegalOpcode 0xD 0xDF)

/-- Every well-formed instruction's byte decodes to it: no bit of an encoding is dropped (R47, R50). -/
def Obligations.DecodeOfEncodeIsTheInstruction : Prop :=
  ∀ i : Instr, i.wellFormed = true →
    (encode i).toNat = i.fields.opcode * 16 + i.fields.operand ∧ decode (encode i) = .ok i

/-- Each byte has at most one instruction and each instruction one byte; a rejected byte is no instruction's. -/
def Obligations.DecodeAgreesWithEncodeBothWays : Prop :=
  (∀ (w : Byte) (i : Instr), decode w = .ok i ↔ encode i = w) ∧
  ∀ w : Byte, (∃ r, decode w = .error r) ↔ ∀ i : Instr, encode i ≠ w

/-- R52: all 16 operand values of OUT and of HLT behave alike, and the assembler emits the form with operand 0. That it
emits it whatever tokens follow the mnemonic is the spec's decision D19 (log entry 18). -/
def Obligations.IgnoredOperandBitsChangeNothing : Prop :=
  ∀ (n : Nibble) (s : State),
    decode (0xE#4 ++ n) = .ok (.out n) ∧ decode (0xF#4 ++ n) = .ok (.hlt n) ∧
    exec (.out n) s = exec (.out 0) s ∧ exec (.hlt n) s = exec (.hlt 0) s ∧
    ∀ (cfg : AsmConfig) (labels : LabelTable) (args : List Text),
      encodeItem cfg labels (.instr .out args) = .ok 0xE0#8 ∧ encodeItem cfg labels (.instr .hlt args) = .ok 0xF0#8

/-! ### The six instructions (spec/41 to 43): encoding, result, and all they leave alone -/

/-- R87. -/
def Obligations.LdaLoadsTheCell : Prop :=
  ∀ (addr : Addr) (s : State),
    (0x1#4 ++ addr : Byte).toNat = 0x10 + addr.toNat ∧ decode (0x1#4 ++ addr) = .ok (.lda addr) ∧
    ∃ t, exec (.lda addr) s = .next t ∧ t.mar = addr ∧ t.a = Memory.read s.mem addr ∧
      t.b = s.b ∧ t.out = s.out ∧ t.halted = s.halted ∧ t.ir = s.ir ∧ t.pc = s.pc ∧ SameCells s t

/-- R88: exactly one cell changes, the one at the effective address. -/
def Obligations.StaStoresTheAccumulator : Prop :=
  ∀ (addr : Addr) (s : State),
    (0x4#4 ++ addr : Byte).toNat = 0x40 + addr.toNat ∧ decode (0x4#4 ++ addr) = .ok (.sta addr) ∧
    ∃ t, exec (.sta addr) s = .next t ∧ t.mar = addr ∧ Memory.read t.mem (effectiveAddress addr) = s.a ∧
      (∀ x, x ≠ effectiveAddress addr → Memory.read t.mem x = Memory.read s.mem x) ∧ effectiveAddress addr = addr ∧
      t.a = s.a ∧ t.b = s.b ∧ t.out = s.out ∧ t.halted = s.halted ∧ t.ir = s.ir ∧ t.pc = s.pc

/-- R89: the old `A` and the new `B`, modulo 256. -/
def Obligations.AddAddsTheCell : Prop :=
  ∀ (addr : Addr) (s : State),
    (0x2#4 ++ addr : Byte).toNat = 0x20 + addr.toNat ∧ decode (0x2#4 ++ addr) = .ok (.add addr) ∧
    ∃ t, exec (.add addr) s = .next t ∧ t.mar = addr ∧ t.b = Memory.read s.mem addr ∧
      t.a.toNat = (s.a.toNat + (Memory.read s.mem addr).toNat) % 256 ∧
      t.out = s.out ∧ t.halted = s.halted ∧ t.ir = s.ir ∧ t.pc = s.pc ∧ SameCells s t

/-- R90: `A` minus the cell, never the cell minus `A`, modulo 256. -/
def Obligations.SubSubtractsTheCell : Prop :=
  ∀ (addr : Addr) (s : State),
    (0x3#4 ++ addr : Byte).toNat = 0x30 + addr.toNat ∧ decode (0x3#4 ++ addr) = .ok (.sub addr) ∧
    ∃ t, exec (.sub addr) s = .next t ∧ t.mar = addr ∧ t.b = Memory.read s.mem addr ∧
      (t.a.toNat : Int) = ((s.a.toNat : Int) - (Memory.read s.mem addr).toNat) % 256 ∧
      t.out = s.out ∧ t.halted = s.halted ∧ t.ir = s.ir ∧ t.pc = s.pc ∧ SameCells s t

/-- R94. -/
def Obligations.OutCopiesTheAccumulator : Prop :=
  ∀ (ignored : Nibble) (s : State),
    (0xE#4 ++ ignored : Byte).toNat = 0xE0 + ignored.toNat ∧ decode (0xE#4 ++ ignored) = .ok (.out ignored) ∧
    encode (.out 0) = 0xE0#8 ∧
    ∃ t, exec (.out ignored) s = .next t ∧ t.out = s.a ∧
      t.a = s.a ∧ t.b = s.b ∧ t.mar = s.mar ∧ t.halted = s.halted ∧ t.ir = s.ir ∧ t.pc = s.pc ∧ SameCells s t

/-- R95, with its consequences: every later Step answers "no instruction" and changes nothing, a Run executes nothing,
and Reset clears the latch. That `t_state` too is unchanged by a later Step is the spec's decision D23 (log entry 10),
and the spec derives that a Run on a halted core executes nothing. -/
def Obligations.HltSetsTheHaltLatch : Prop :=
  ∀ (ignored : Nibble) (s : State),
    (0xF#4 ++ ignored : Byte).toNat = 0xF0 + ignored.toNat ∧ decode (0xF#4 ++ ignored) = .ok (.hlt ignored) ∧
    encode (.hlt 0) = 0xF0#8 ∧
    ∃ t, exec (.hlt ignored) s = .next t ∧ t.halted = true ∧
      t.a = s.a ∧ t.b = s.b ∧ t.out = s.out ∧ t.mar = s.mar ∧ t.ir = s.ir ∧ t.pc = s.pc ∧ SameCells s t ∧
      (∀ cfg : HostConfig, hostStep cfg t = (t, .noInstruction)) ∧
      (∀ (cfg : HostConfig) (n : Nat), hostRun cfg n t = ⟨t, [], .done⟩) ∧ (resetOp t).halted = false

/-- The frame of every execute phase: what each instruction leaves unchanged. The store's address is the operand form's
effective address. -/
def Obligations.ExecutePhaseFrame : Prop :=
  ∀ (i : Instr) (s t : State), exec i s = .next t →
    t.ir = s.ir ∧ t.pc = s.pc ∧
    match i with
    | .lda _ => t.b = s.b ∧ t.out = s.out ∧ t.halted = s.halted ∧ SameCells s t
    | .add _ => t.out = s.out ∧ t.halted = s.halted ∧ SameCells s t
    | .sub _ => t.out = s.out ∧ t.halted = s.halted ∧ SameCells s t
    | .sta addr => t.a = s.a ∧ t.b = s.b ∧ t.out = s.out ∧ t.halted = s.halted ∧
        ∀ x, x ≠ effectiveAddress addr → Memory.read t.mem x = Memory.read s.mem x
    | .out _ => t.a = s.a ∧ t.b = s.b ∧ t.mar = s.mar ∧ t.halted = s.halted ∧ SameCells s t
    | .hlt _ => t.a = s.a ∧ t.b = s.b ∧ t.out = s.out ∧ t.mar = s.mar ∧ SameCells s t

/-- R91: the sum, the difference and the next address, in unbounded integers and then reduced. -/
def Obligations.ArithmeticIsModular : Prop :=
  ∀ (a b : Byte) (pc : Addr),
    (aluAdd a b).toNat = (a.toNat + b.toNat) % 256 ∧
    ((aluSub a b).toNat : Int) = ((a.toNat : Int) - b.toNat) % 256 ∧
    (nextAddr pc).toNat = (pc.toNat + 1) % 16

/-- R92 (the spec derives it): read as signed numbers, the results are the two's complement ones. -/
def Obligations.ArithmeticReadAsSigned : Prop :=
  ∀ a b : Byte,
    (aluAdd a b).toInt = (a.toInt + b.toInt).bmod 256 ∧ (aluSub a b).toInt = (a.toInt - b.toInt).bmod 256

/-! ### The Step (spec/40_instruction_cycle.md, spec/10_state.md) -/

/-- R77: fetch writes `MAR`, `IR`, `PC` in that order, for every byte; then the decoded instruction runs on the fetched
state, and a byte that decodes to none faults with the `IR` byte just fetched. That the fault leaves the fetched state,
and no rollback of it, is the spec's decision D2 (log entry 3). -/
def Obligations.StepRunsTheDecodedInstruction : Prop :=
  ∀ s : State,
    ((fetch s).mar = s.pc ∧ (fetch s).ir = Memory.read s.mem s.pc ∧ (fetch s).pc.toNat = (s.pc.toNat + 1) % 16 ∧
      (fetch s).a = s.a ∧ (fetch s).b = s.b ∧ (fetch s).out = s.out ∧ (fetch s).halted = s.halted ∧
      SameCells s (fetch s)) ∧
    (s.halted = false →
      (∀ i, decode (Memory.read s.mem s.pc) = .ok i → step s = exec i (fetch s)) ∧
      (∀ op w, decode (Memory.read s.mem s.pc) = .error (.illegalOpcode op w) →
        step s = .fault (.decodeError op (Memory.read s.mem s.pc) (fetch s))))

/-- The step after `withFetchWord` runs the instruction the table word decodes to. -/
def Obligations.PlacedWordIsWhatRuns : Prop :=
  ∀ (s : State) (w : Nat) (i : Instr), decodeTableWord 8 w = some i →
    step (s.withFetchWord 8 w) = exec i (fetch (s.withFetchWord 8 w)) ∧
    (s.withFetchWord 8 w).pc = s.pc ∧
    ∀ x, x ≠ s.pc → Memory.read (s.withFetchWord 8 w).mem x = Memory.read s.mem x

/-- A halted core stays as it is however often it is stepped or run, and reports that no instruction ran. That `t_state`
too is unchanged is the spec's decision D23 (log entry 10). -/
def Obligations.HaltedCoreNeverChanges : Prop :=
  ∀ s : State, s.halted = true → ∀ (cfg : HostConfig) (k : Nat),
    runSteps k s = .next s ∧ hostStep cfg s = (s, .noInstruction) ∧ hostRun cfg k s = ⟨s, [], .done⟩

/-- R12: what a Step does to `A` and with `A`. -/
def Obligations.AccumulatorAfterStep : Prop :=
  ∀ s t : State, s.halted = false → step s = .next t →
    t.a = (if s.opcodeAtPc = 0x1#4 then s.operandCell
      else if s.opcodeAtPc = 0x2#4 then s.a + s.operandCell
      else if s.opcodeAtPc = 0x3#4 then s.a - s.operandCell
      else s.a) ∧
    (s.opcodeAtPc = 0x4#4 → Memory.read t.mem s.operandAtPc = s.a) ∧
    (s.opcodeAtPc = 0xE#4 → t.out = s.a)

/-- R13: ADD and SUB load `B` with their operand's cell, nothing else writes it, and the `B` left by an earlier
instruction is read by none: a different one changes neither the outcome nor any other item. -/
def Obligations.BHoldsTheSecondOperand : Prop :=
  ∀ s t : State, s.halted = false → step s = .next t →
    t.b = (if s.opcodeAtPc = 0x2#4 ∨ s.opcodeAtPc = 0x3#4 then s.operandCell else s.b) ∧
    ∀ v : Byte, ∃ t', step (s.setB v) = .next t' ∧ t'.a = t.a ∧ t'.out = t.out ∧ t'.ir = t.ir ∧ t'.pc = t.pc ∧
      t'.mar = t.mar ∧ t'.halted = t.halted ∧ SameCells t t' ∧
      (s.opcodeAtPc = 0x2#4 ∨ s.opcodeAtPc = 0x3#4 → t'.b = t.b)

/-- R14: only the OUT instruction writes `OUT`, with a copy of `A`, and nothing in the core reads it. -/
def Obligations.OutRegisterAfterStep : Prop :=
  ∀ s t : State, s.halted = false → step s = .next t →
    t.out = (if s.opcodeAtPc = 0xE#4 then s.a else s.out) ∧
    ∀ v : Byte, ∃ t', step (s.setOut v) = .next t' ∧ t'.a = t.a ∧ t'.b = t.b ∧ t'.ir = t.ir ∧ t'.pc = t.pc ∧
      t'.mar = t.mar ∧ t'.halted = t.halted ∧ SameCells t t'

/-- R16: `PC` advances by one modulo 16 in the fetch of a running core and is written by nothing else but Reset; no
instruction reads it. -/
def Obligations.ProgramCounterAfterStep : Prop :=
  (∀ s t : State, s.halted = false → step s = .next t →
    t.ir = Memory.read s.mem s.pc ∧ t.pc.toNat = (s.pc.toNat + 1) % 16) ∧
  (∀ s t : State, s.halted = true → step s = .next t → t.pc = s.pc) ∧
  (∀ (i : Instr) (s t : State) (p : Addr), exec i s = .next t →
    t.pc = s.pc ∧ exec i (s.setPc p) = .next (t.setPc p)) ∧
  (∀ s : State, (resetOp s).pc = 0) ∧ ∀ (pairs : List (Nat × Nat)) (s : State), (loadProgram pairs s).pc = s.pc

/-- R17 and R84 (the spec derives the latter): what `MAR` holds after a Step that executed an instruction. -/
def Obligations.AddressRegisterAfterStep : Prop :=
  ∀ s t : State, s.halted = false → step s = .next t →
    t.mar = (if s.opcodeAtPc = 0x1#4 ∨ s.opcodeAtPc = 0x2#4 ∨ s.opcodeAtPc = 0x3#4 ∨ s.opcodeAtPc = 0x4#4
      then s.operandAtPc else s.pc) ∧
    (s.opcodeAtPc = 0xE#4 ∨ s.opcodeAtPc = 0xF#4 → t.mar = t.pc - 1)

/-- R18: a Step sets the halt latch exactly by HLT, never clears it, a fault leaves it 0, a halted core does not move,
Reset clears it and LoadProgram leaves it. That a halted core's Step keeps `t_state` too is the spec's decision D23 (log
entry 10). -/
def Obligations.HaltLatchAfterStep : Prop :=
  (∀ s t : State, step s = .next t → (t.halted = true ↔ s.halted = true ∨ s.opcodeAtPc = 0xF#4)) ∧
  (∀ (s : State) (f : Fault), step s = .fault f → (afterFault f).halted = false) ∧
  (∀ s : State, s.halted = true → step s = .next s) ∧
  (∀ s : State, (resetOp s).halted = false) ∧
  ∀ (pairs : List (Nat × Nat)) (s : State), (loadProgram pairs s).halted = s.halted

/-- R31's table of writers (the core's part): the one cell STA names changes, and no other Step changes any cell. -/
def Obligations.MemoryAfterStep : Prop :=
  ∀ s t : State, s.halted = false → step s = .next t → ∀ x : Addr,
    Memory.read t.mem x = if s.opcodeAtPc = 0x4#4 ∧ x = s.operandAtPc then s.a else Memory.read s.mem x

/-- R44 (the spec derives it): a store is seen by the very next fetch, also at the address `PC` then names; a store
over the executing instruction leaves `IR`, and so that execution, alone. -/
def Obligations.StoreIsSeenByTheNextFetch : Prop :=
  ∀ s : State, s.halted = false →
    (s.byteAtPc = 0x4#4 ++ (s.pc + 1) →
      ∃ t, step s = .next t ∧ t.byteAtPc = s.a ∧ ∀ i, decode s.a = .ok i → step t = exec i (fetch t)) ∧
    (s.byteAtPc = 0x4#4 ++ s.pc →
      ∃ t, step s = .next t ∧ t.ir = s.byteAtPc ∧ Memory.read t.mem s.pc = s.a ∧ t.halted = false)

/-! ### Memory (spec/20_memory.md) -/

/-- R30: both primitives reduce the address modulo 16, a write stores the value modulo 256 and changes no other cell. -/
def Obligations.MemoryReadAfterWrite : Prop :=
  ∀ (m : Memory) (addr x v : Nat),
    (x % 16 = addr % 16 → (memRead x (memWrite addr v m)).toNat = v % 256) ∧
    (x % 16 ≠ addr % 16 → memRead x (memWrite addr v m) = memRead x m) ∧
    memRead (x + 16) m = memRead x m

/-- Canonical memories that read alike are equal data (the model's form of memory, log entry 9). -/
def Obligations.CanonicalMemoryIsItsCells : Prop :=
  ∀ m m' : Memory, Memory.wf m = true → Memory.wf m' = true →
    (∀ x : Addr, Memory.read m x = Memory.read m' x) → m = m'

/-! ### The fault (spec/60_exceptions.md) -/

/-- R112: when a Step faults, with which two values, and that nothing else goes wrong. -/
def Obligations.DecodeErrorIsTheOnlyFault : Prop :=
  ∀ s : State,
    ((∃ f, step s = .fault f) ↔
      s.halted = false ∧ (s.opcodeAtPc.toNat = 0 ∨ (5 ≤ s.opcodeAtPc.toNat ∧ s.opcodeAtPc.toNat ≤ 13))) ∧
    (∀ op ir left, step s = .fault (.decodeError op ir left) → op = s.opcodeAtPc ∧ ir = s.byteAtPc) ∧
    ∀ r, step s ≠ .refused r

/-- The state a DecodeError leaves, and that the host's next Step starts from it. That the fetch is kept is the spec's
decision D2, and that a further Step goes on from there its decision D3 (log entries 3 and 4). -/
def Obligations.StateLeftByDecodeError : Prop :=
  ∀ (s : State) (op : Nibble) (ir : Byte) (left : State), step s = .fault (.decodeError op ir left) →
    left.mar = s.pc ∧ left.ir = Memory.read s.mem s.pc ∧ left.pc.toNat = (s.pc.toNat + 1) % 16 ∧
    left.a = s.a ∧ left.b = s.b ∧ left.out = s.out ∧ left.halted = false ∧ SameCells s left ∧
    (∀ cfg : HostConfig, hostStep cfg s = (left, .fault op ir)) ∧
    ∀ i, decode (Memory.read s.mem left.pc) = .ok i → step left = exec i (fetch left)

/-- R139 (the spec derives it, from its decisions D1 to D3): a machine stepped with no program faults at every Step,
one address further each time. -/
def Obligations.EmptyMachineFaultsAtEveryStep : Prop :=
  ∀ (cfg : HostConfig) (n : Nat),
    ∃ left, hostStep cfg (applyOps cfg (List.replicate n .step) Session.powerOn).state = (left, .fault 0x0 0x00) ∧
      left.pc.toNat = (n + 1) % 16 ∧ left.mar.toNat = n % 16 ∧ left.ir = 0 ∧ left.a = 0 ∧ left.b = 0 ∧ left.out = 0 ∧
      left.halted = false ∧ (applyOps cfg (List.replicate (n + 1) .step) Session.powerOn).firstFault = some (0x0, 0x00)

/-! ### Reset, power-on, and the host's operations (spec/10_state.md, spec/50_host_interface.md) -/

/-- R26: Reset writes zero to every register, the latch and `t_state`, in any state, and does not touch memory. -/
def Obligations.ResetWritesZeros : Prop :=
  ∀ s : State, (resetOp s).a = 0 ∧ (resetOp s).b = 0 ∧ (resetOp s).out = 0 ∧ (resetOp s).ir = 0 ∧ (resetOp s).pc = 0 ∧
    (resetOp s).mar = 0 ∧ (resetOp s).halted = false ∧ (resetOp s).tState = 0 ∧ (resetOp s).mem = s.mem

/-- The machine at power-on: every cell 0, and every register 0 by the spec's decision D1 (log entry 2). -/
def Obligations.PowerOnState : Prop :=
  Sys2Proof.core.reset = State.reset ∧ Session.powerOn.state = State.reset ∧
  (∀ x : Addr, Memory.read State.reset.mem x = 0) ∧
  State.reset.a = 0 ∧ State.reset.b = 0 ∧ State.reset.out = 0 ∧ State.reset.ir = 0 ∧ State.reset.pc = 0 ∧
  State.reset.mar = 0 ∧ State.reset.halted = false ∧ State.reset.tState = 0

/-- R98: each cell holds the last pair that names it, modulo 16 and 256, or what it held; no register changes. -/
def Obligations.LoadProgramWritesTheCells : Prop :=
  ∀ (pairs : List (Nat × Nat)) (s : State),
    (∀ x : Addr, Memory.read (loadProgram pairs s).mem x =
      match pairs.reverse.find? (fun p => decide (p.1 % 16 = x.toNat)) with
      | some p => BitVec.ofNat 8 (p.2 % 256)
      | none => Memory.read s.mem x) ∧
    (loadProgram pairs s).a = s.a ∧ (loadProgram pairs s).b = s.b ∧ (loadProgram pairs s).out = s.out ∧
    (loadProgram pairs s).ir = s.ir ∧ (loadProgram pairs s).pc = s.pc ∧ (loadProgram pairs s).mar = s.mar ∧
    (loadProgram pairs s).halted = s.halted ∧ (loadProgram pairs s).tState = s.tState

/-- LoadProgram and Reset may come in either order (R137). -/
def Obligations.LoadAndResetCommute : Prop :=
  ∀ (pairs : List (Nat × Nat)) (s : State), resetOp (loadProgram pairs s) = loadProgram pairs (resetOp s)

/-- R101: the loop of Run, one Step at a time. That a Run ends on the first fault is the spec's decision D7 (log entry 8),
and that the reports of the executed Steps before a fault are kept, as the third clause says for every ending of the rest,
is the model's DESIGN CHOICE (log entry 8; R103 models no such hand-over). -/
def Obligations.RunFollowsItsLoop : Prop :=
  ∀ (cfg : HostConfig) (n : Nat) (s : State),
    hostRun cfg 0 s = ⟨s, [], .done⟩ ∧
    (s.halted = true → hostRun cfg n s = ⟨s, [], .done⟩) ∧
    (s.halted = false → ∀ t, step s = .next t →
      hostRun cfg (n + 1) s =
        ⟨(hostRun cfg n t).state, executedReport cfg :: (hostRun cfg n t).reports, (hostRun cfg n t).ending⟩) ∧
    (s.halted = false → ∀ op ir left, step s = .fault (.decodeError op ir left) →
      hostRun cfg (n + 1) s = ⟨left, [.fault op ir], .fault op ir⟩)

/-- A Run takes at most its bound of Steps and ends by HLT, by the bound, or by the DecodeError of the byte in `IR`;
never otherwise (R101, R103, R104, R108). That it ends on the fault is the spec's decision D7 (log entry 8), and that
`IR` then holds the illegal byte its decision D2 (log entry 3). -/
def Obligations.RunEndsByHaltFaultOrBound : Prop :=
  ∀ (cfg : HostConfig) (n : Nat) (s : State),
    (hostRun cfg n s).reports.length ≤ n ∧
    match (hostRun cfg n s).ending with
    | .done => (hostRun cfg n s).state.halted = true ∨ (hostRun cfg n s).reports.length = n
    | .fault op ir => (hostRun cfg n s).state.halted = false ∧ (hostRun cfg n s).state.ir = ir ∧ opcodeField ir = op
    | .refused _ => False

/-- A second Run goes on where the first stopped (R101): two bounds in a row are one Run of their sum, unless the first
ends by a fault, which the longer Run ends by as well. That a Run ends on a fault is the spec's decision D7, and that its
earlier reports are kept then the model's choice (log entry 8). -/
def Obligations.RunsCompose : Prop :=
  ∀ (cfg : HostConfig) (m n : Nat) (s : State),
    ((hostRun cfg m s).ending = .done →
      hostRun cfg (m + n) s =
        ⟨(hostRun cfg n (hostRun cfg m s).state).state,
         (hostRun cfg m s).reports ++ (hostRun cfg n (hostRun cfg m s).state).reports,
         (hostRun cfg n (hostRun cfg m s).state).ending⟩) ∧
    ((hostRun cfg m s).ending ≠ .done → hostRun cfg (m + n) s = hostRun cfg m s)

/-- R107: the flags decide which trace lines a Step returns, and nothing of the state of a Step or a Run. -/
def Obligations.TraceFlagsDoNotAffectState : Prop :=
  ∀ (cfg cfg' : HostConfig) (n : Nat) (s : State),
    (hostStep cfg s).1 = (hostStep cfg' s).1 ∧ (hostRun cfg n s).state = (hostRun cfg' n s).state ∧
    (hostRun cfg n s).ending = (hostRun cfg' n s).ending ∧
    ∀ t, s.halted = false → step s = .next t →
      hostStep cfg s = (t, .executed cfg.instructionTrace (if cfg.microstepTrace then [0, 1, 2, 3] else []))

/-- The log of outputs has in its last entry what `OUT` holds, or is empty and `OUT` is as it was (R106). -/
def Obligations.OutHoldsTheLastLoggedOutput : Prop :=
  ∀ (k : Nat) (s t : State), runSteps k s = .next t → t.out = (outputLog k s).getLastD s.out

/-- The session's record of the first fault is never replaced or lost before a Reset (R131; that Reset begins a new
record is the model's choice, log entry 4). -/
def Obligations.FirstFaultIsSticky : Prop :=
  ∀ (cfg : HostConfig) (ops : List HostOp) (m : Session) (first : Nibble × Byte),
    m.firstFault = some first → (∀ op ∈ ops, op ≠ .reset) → (applyOps cfg ops m).firstFault = some first

/-! ### Invariants and whole runs (spec/70_reset_and_hazards.md) -/

/-- The invariant holds at power-on and after Reset of a state that has it. Its clause that memory is canonical is about
the model's form of memory (DESIGN CHOICE, log entry 9). -/
def Obligations.InvariantAtReset : Prop :=
  State.reset.Inv ∧ ∀ s : State, s.Inv → (resetOp s).Inv

/-- Every Step keeps the invariant: memory stays canonical, and a halted core holds a HLT byte in `IR` that was fetched
from the address in `MAR`. The state a fault leaves has it too. The canonical form is the model's (DESIGN CHOICE, log
entry 9). -/
def Obligations.StepKeepsTheInvariant : Prop :=
  ∀ s : State, s.Inv → (∀ t, step s = .next t → t.Inv) ∧ ∀ f, step s = .fault f → (afterFault f).Inv

/-- Every sequence of host operations keeps it, so every state a host can bring about from power-on has it. Its clause
that memory is canonical is about the model's form of memory (DESIGN CHOICE, log entry 9). -/
def Obligations.HostOperationsKeepTheInvariant : Prop :=
  ∀ (cfg : HostConfig) (ops : List HostOp),
    (∀ m : Session, m.state.Inv → (applyOps cfg ops m).state.Inv) ∧ (applyOps cfg ops Session.powerOn).state.Inv

/-- R83: `PC` counts the Steps modulo 16 while the core runs, sixteen of them bring it back, and a program that reaches
no HLT and no illegal byte runs for ever. -/
def Obligations.ProgramCounterWrapsModulo16 : Prop :=
  (∀ (k : Nat) (s t : State), runSteps k s = .next t → t.halted = false → t.pc.toNat = (s.pc.toNat + k) % 16) ∧
  (∀ s t : State, runSteps 16 s = .next t → t.halted = false → t.pc = s.pc) ∧
  ∀ s : State, s.halted = false →
    (∀ (k : Nat) (t : State), runSteps k s = .next t →
      t.opcodeAtPc = 0x1#4 ∨ t.opcodeAtPc = 0x2#4 ∨ t.opcodeAtPc = 0x3#4 ∨ t.opcodeAtPc = 0x4#4 ∨ t.opcodeAtPc = 0xE#4) →
    RunsForever s

/-- Sixteen cells that all hold LDA, ADD, SUB or OUT bytes run for ever from every register content (R142). -/
def Obligations.StorelessProgramWithoutHltRunsForever : Prop :=
  ∀ s : State, s.halted = false →
    (∀ x : Addr, opcodeField (Memory.read s.mem x) = 0x1#4 ∨ opcodeField (Memory.read s.mem x) = 0x2#4 ∨
      opcodeField (Memory.read s.mem x) = 0x3#4 ∨ opcodeField (Memory.read s.mem x) = 0xE#4) →
    RunsForever s ∧ ∀ (k : Nat) (t : State), runSteps k s = .next t → SameCells s t

/-- R150 (the spec derives it): a program that reaches a HLT in `k` instructions halts after exactly `k` Steps, and
every Run whose bound is at least `k` ends there. That a state already halted counts as a halt in 0 Steps is the model's
choice (log entry 27). -/
def Obligations.RunReachesTheHalt : Prop :=
  ∀ (cfg : HostConfig) (k : Nat) (s t : State), HaltsAfter k s t → ∀ n, k ≤ n →
    (hostRun cfg n s).state = t ∧ (hostRun cfg n s).ending = .done ∧ (hostRun cfg n s).reports.length = k

/-- R147 (the spec derives it): a run halts, faults or does neither, in exactly one of these ways and at one moment. That
a run which starts halted counts as halting in 0 Steps is the model's choice (log entry 27). -/
def Obligations.RunHasExactlyOneEnd : Prop :=
  ∀ s : State,
    ((∃ k t, HaltsAfter k s t) ∨ (∃ k f, FaultsAfter k s f) ∨ RunsForever s) ∧
    (∀ k t j f, HaltsAfter k s t → ¬ FaultsAfter j s f) ∧
    (∀ k t, HaltsAfter k s t → ¬ RunsForever s) ∧
    (∀ k f, FaultsAfter k s f → ¬ RunsForever s) ∧
    (∀ k t k' t', HaltsAfter k s t → HaltsAfter k' s t' → k = k' ∧ t = t') ∧
    ∀ k f k' f', FaultsAfter k s f → FaultsAfter k' s f' → k = k' ∧ f = f'

/-- What a program can depend on: `B`, `OUT`, `IR`, `MAR` and `t_state` at the start change neither how a run ends nor
what it computes: the sequence of its outputs (R106), and memory, `A`, `PC` and the latch (R13, R14, R15, R17, R19,
R127). -/
def Obligations.OnlyMemoryAccumulatorAndCounterMatter : Prop :=
  ∀ (k : Nat) (s u : State), SameCells s u → u.a = s.a → u.pc = s.pc → u.halted = s.halted →
    outputLog k u = outputLog k s ∧
    match runSteps k s, runSteps k u with
    | .next t, .next v => SameCells t v ∧ v.a = t.a ∧ v.pc = t.pc ∧ v.halted = t.halted
    | .fault (.decodeError op ir _), .fault (.decodeError op' ir' _) => op' = op ∧ ir' = ir
    | _, _ => False

/-! ### The assembler's contract (spec/30_encoding.md section 3) -/

/-- R57: a comment, white space around a line and a blank line change nothing of what is assembled. -/
def Obligations.CommentsAndBlanksAreIgnored : Prop :=
  ∀ (cfg : AsmConfig) (before after : List Text) (line comment left right : Text),
    assemble cfg (before ++ (line ++ ';' :: comment) :: after) = assemble cfg (before ++ line :: after) ∧
    (left.all isBlank = true → right.all isBlank = true →
      assemble cfg (before ++ (left ++ line ++ right) :: after) = assemble cfg (before ++ line :: after)) ∧
    (left.all isBlank = true → assemble cfg (before ++ left :: after) = assemble cfg (before ++ after))

/-- R59: pass 1 gives one slot to every line that is no label, and binds a name to a slot exactly when its label line
stands in the program, to the number of slots before it. -/
def Obligations.LabelIsBoundToItsSlot : Prop :=
  ∀ (lines : List Text) (items : List Item) (labels : LabelTable), layoutFrom 0 [] lines = .ok (items, labels) →
    items.length = (lines.filter (fun l => !isLabelLine l)).length ∧
    ∀ (name : Text) (slot : Addr), findLabel labels name = some slot ↔
      ∃ before after, lines = before ++ (name ++ [':']) :: after ∧
        slot.toNat = (before.filter (fun l => !isLabelLine l)).length

/-- R63: what each slot emits, and that the core's decoder reads the emitted byte as that instruction. That OUT and HLT
emit their byte whatever tokens follow is the spec's decision D19 (log entry 18). -/
def Obligations.SlotEncoding : Prop :=
  ∀ (cfg : AsmConfig) (labels : LabelTable) (token : Text) (args : List Text) (n : Nat),
    (readLiteral token = some n →
      ∃ w, encodeItem cfg labels (.byte [token]) = .ok w ∧ w.toNat = n % 256) ∧
    encodeItem cfg labels (.instr .out args) = .ok 0xE0#8 ∧ encodeItem cfg labels (.instr .hlt args) = .ok 0xF0#8 ∧
    (resolveOperand cfg labels token = .ok n →
      (∃ w, encodeItem cfg labels (.instr .lda [token]) = .ok w ∧ w.toNat = 0x1 * 16 + n % 16 ∧
        decode w = .ok (.lda (BitVec.ofNat 4 n))) ∧
      (∃ w, encodeItem cfg labels (.instr .add [token]) = .ok w ∧ w.toNat = 0x2 * 16 + n % 16 ∧
        decode w = .ok (.add (BitVec.ofNat 4 n))) ∧
      (∃ w, encodeItem cfg labels (.instr .sub [token]) = .ok w ∧ w.toNat = 0x3 * 16 + n % 16 ∧
        decode w = .ok (.sub (BitVec.ofNat 4 n))) ∧
      (∃ w, encodeItem cfg labels (.instr .sta [token]) = .ok w ∧ w.toNat = 0x4 * 16 + n % 16 ∧
        decode w = .ok (.sta (BitVec.ofNat 4 n))))

/-- R64: a token is one of the six mnemonics exactly when its upper case is that spelling, a label is found under its
own spelling and no other, and so read R64's examples. That `Char.toUpper` is the upper case of a letter is PRESUMED (log
entry 20). -/
def Obligations.CaseOfMnemonicsAndLabels : Prop :=
  (∀ token : Text,
    (readMnemonic token = some .lda ↔ token.map Char.toUpper = ['L', 'D', 'A']) ∧
    (readMnemonic token = some .add ↔ token.map Char.toUpper = ['A', 'D', 'D']) ∧
    (readMnemonic token = some .sub ↔ token.map Char.toUpper = ['S', 'U', 'B']) ∧
    (readMnemonic token = some .sta ↔ token.map Char.toUpper = ['S', 'T', 'A']) ∧
    (readMnemonic token = some .out ↔ token.map Char.toUpper = ['O', 'U', 'T']) ∧
    (readMnemonic token = some .hlt ↔ token.map Char.toUpper = ['H', 'L', 'T'])) ∧
  (∀ token token' : Text, token.map Char.toUpper = token'.map Char.toUpper → readMnemonic token = readMnemonic token') ∧
  (readMnemonic ['l', 'd', 'a'] = some .lda ∧ readMnemonic ['L', 'd', 'a'] = some .lda ∧
    readMnemonic ['L', 'D', 'A'] = some .lda) ∧
  (∀ (labels : LabelTable) (name : Text) (slot : Addr), findLabel ((name, slot) :: labels) name = some slot) ∧
  (∀ (labels : LabelTable) (name name' : Text) (slot : Addr),
    name ≠ name' → findLabel ((name, slot) :: labels) name' = findLabel labels name') ∧
  ∀ slot slot' : Addr, findLabel [(['l', 'o', 'o', 'p'], slot), (['L', 'o', 'o', 'p'], slot')] ['L', 'o', 'o', 'p'] = some slot'

/-- An assembled program has one byte for each line that is no label, and fits the 16 cells (the spec's decision D14,
log entry 14). -/
def Obligations.AssembledProgramFits : Prop :=
  ∀ (cfg : AsmConfig) (lines : List Text) (p : AssembledProgram), assemble cfg lines = .ok p →
    p.bytes.length = ((cleanLines lines).filter (fun l => !isLabelLine l)).length ∧ p.bytes.length ≤ 16

/-- Loading an assembled program puts byte `i` in cell `i` (the spec's decision D25, log entry 19), and leaves the
cells after it. -/
def Obligations.AssembledProgramLoadsInOrder : Prop :=
  ∀ (cfg : AsmConfig) (lines : List Text) (p : AssembledProgram) (s : State), assemble cfg lines = .ok p →
    ∀ x : Addr, Memory.read (loadProgram (slotPairs 0 p.bytes) s).mem x =
      (p.bytes[x.toNat]?).getD (Memory.read s.mem x)
end

