-- ==== Sys2Proof/Laws/Decode.lean ====
section
/-! SUPPORT. The masks, the fields of a byte, and what the decoder answers (spec/00_scope.md R6, R8; spec/30_encoding.md
R47, R48, R50). -/
namespace Sys2Proof

@[simp] theorem mask8_natCast (n : Nat) : mask8 (n : Int) = BitVec.ofNat 8 n := by
  unfold mask8
  exact BitVec.ofInt_natCast 8 n

@[simp] theorem mask4_natCast (n : Nat) : mask4 (n : Int) = BitVec.ofNat 4 n := by
  unfold mask4
  exact BitVec.ofInt_natCast 4 n

theorem opcodeField_toNat (w : Byte) : (opcodeField w).toNat = w.toNat / 16 := by
  have h := w.isLt
  simp only [opcodeField, BitVec.extractLsb'_toNat, Nat.shiftRight_eq_div_pow]
  omega

theorem operandField_toNat (w : Byte) : (operandField w).toNat = w.toNat % 16 := by
  simp [operandField, BitVec.extractLsb'_toNat]

@[simp] theorem opcodeField_append (op operand : Nibble) : opcodeField (op ++ operand) = op := by
  apply BitVec.eq_of_toNat_eq
  have h := operand.isLt
  rw [opcodeField_toNat, BitVec.toNat_append, ← Nat.shiftLeft_add_eq_or_of_lt h, Nat.shiftLeft_eq]
  omega

@[simp] theorem operandField_append (op operand : Nibble) : operandField (op ++ operand) = operand := by
  apply BitVec.eq_of_toNat_eq
  have h := operand.isLt
  rw [operandField_toNat, BitVec.toNat_append, ← Nat.shiftLeft_add_eq_or_of_lt h, Nat.shiftLeft_eq]
  omega

/-- A byte is its two fields (R47). -/
theorem fields_append (w : Byte) : opcodeField w ++ operandField w = w := by
  apply BitVec.eq_of_toNat_eq
  have h := (operandField w).isLt
  rw [BitVec.toNat_append, ← Nat.shiftLeft_add_eq_or_of_lt h, Nat.shiftLeft_eq, opcodeField_toNat, operandField_toNat]
  omega

/-- The opcode names an instruction (R50). -/
def legalOpcode (op : Nibble) : Prop :=
  op = 0x1#4 ∨ op = 0x2#4 ∨ op = 0x3#4 ∨ op = 0x4#4 ∨ op = 0xE#4 ∨ op = 0xF#4

/-- Everything decode answers: one of the six instructions with the byte's operand, or the rejection of R51. -/
theorem decode_cases (w : Byte) :
    (opcodeField w = 0x1#4 ∧ decode w = .ok (.lda (operandField w))) ∨
    (opcodeField w = 0x2#4 ∧ decode w = .ok (.add (operandField w))) ∨
    (opcodeField w = 0x3#4 ∧ decode w = .ok (.sub (operandField w))) ∨
    (opcodeField w = 0x4#4 ∧ decode w = .ok (.sta (operandField w))) ∨
    (opcodeField w = 0xE#4 ∧ decode w = .ok (.out (operandField w))) ∨
    (opcodeField w = 0xF#4 ∧ decode w = .ok (.hlt (operandField w))) ∨
    (¬ legalOpcode (opcodeField w) ∧ decode w = .error (.illegalOpcode (opcodeField w) w)) := by
  unfold decode legalOpcode
  split <;> simp_all

end Sys2Proof
end

