-- ==== Sys2Proof/Laws/State.lean ====
section
/-! SUPPORT. One lemma per field per update of the state record, true by rfl, so that no proof unfolds an update. -/
namespace Sys2Proof.Machine

section
variable (s : State) (m : Memory)
@[simp] theorem State.setMem_mem : (s.setMem m).mem = m := rfl
@[simp] theorem State.setMem_a : (s.setMem m).a = s.a := rfl
@[simp] theorem State.setMem_b : (s.setMem m).b = s.b := rfl
@[simp] theorem State.setMem_out : (s.setMem m).out = s.out := rfl
@[simp] theorem State.setMem_ir : (s.setMem m).ir = s.ir := rfl
@[simp] theorem State.setMem_pc : (s.setMem m).pc = s.pc := rfl
@[simp] theorem State.setMem_mar : (s.setMem m).mar = s.mar := rfl
@[simp] theorem State.setMem_halted : (s.setMem m).halted = s.halted := rfl
@[simp] theorem State.setMem_tState : (s.setMem m).tState = s.tState := rfl
@[simp] theorem State.setMem_draws : (s.setMem m).draws = s.draws := rfl
end

section
variable (s : State) (v : Byte)
@[simp] theorem State.setA_mem : (s.setA v).mem = s.mem := rfl
@[simp] theorem State.setA_a : (s.setA v).a = v := rfl
@[simp] theorem State.setA_b : (s.setA v).b = s.b := rfl
@[simp] theorem State.setA_out : (s.setA v).out = s.out := rfl
@[simp] theorem State.setA_ir : (s.setA v).ir = s.ir := rfl
@[simp] theorem State.setA_pc : (s.setA v).pc = s.pc := rfl
@[simp] theorem State.setA_mar : (s.setA v).mar = s.mar := rfl
@[simp] theorem State.setA_halted : (s.setA v).halted = s.halted := rfl
@[simp] theorem State.setA_tState : (s.setA v).tState = s.tState := rfl
@[simp] theorem State.setA_draws : (s.setA v).draws = s.draws := rfl
end

section
variable (s : State) (v : Byte)
@[simp] theorem State.setB_mem : (s.setB v).mem = s.mem := rfl
@[simp] theorem State.setB_a : (s.setB v).a = s.a := rfl
@[simp] theorem State.setB_b : (s.setB v).b = v := rfl
@[simp] theorem State.setB_out : (s.setB v).out = s.out := rfl
@[simp] theorem State.setB_ir : (s.setB v).ir = s.ir := rfl
@[simp] theorem State.setB_pc : (s.setB v).pc = s.pc := rfl
@[simp] theorem State.setB_mar : (s.setB v).mar = s.mar := rfl
@[simp] theorem State.setB_halted : (s.setB v).halted = s.halted := rfl
@[simp] theorem State.setB_tState : (s.setB v).tState = s.tState := rfl
@[simp] theorem State.setB_draws : (s.setB v).draws = s.draws := rfl
end

section
variable (s : State) (v : Byte)
@[simp] theorem State.setOut_mem : (s.setOut v).mem = s.mem := rfl
@[simp] theorem State.setOut_a : (s.setOut v).a = s.a := rfl
@[simp] theorem State.setOut_b : (s.setOut v).b = s.b := rfl
@[simp] theorem State.setOut_out : (s.setOut v).out = v := rfl
@[simp] theorem State.setOut_ir : (s.setOut v).ir = s.ir := rfl
@[simp] theorem State.setOut_pc : (s.setOut v).pc = s.pc := rfl
@[simp] theorem State.setOut_mar : (s.setOut v).mar = s.mar := rfl
@[simp] theorem State.setOut_halted : (s.setOut v).halted = s.halted := rfl
@[simp] theorem State.setOut_tState : (s.setOut v).tState = s.tState := rfl
@[simp] theorem State.setOut_draws : (s.setOut v).draws = s.draws := rfl
end

section
variable (s : State) (v : Byte)
@[simp] theorem State.setIr_mem : (s.setIr v).mem = s.mem := rfl
@[simp] theorem State.setIr_a : (s.setIr v).a = s.a := rfl
@[simp] theorem State.setIr_b : (s.setIr v).b = s.b := rfl
@[simp] theorem State.setIr_out : (s.setIr v).out = s.out := rfl
@[simp] theorem State.setIr_ir : (s.setIr v).ir = v := rfl
@[simp] theorem State.setIr_pc : (s.setIr v).pc = s.pc := rfl
@[simp] theorem State.setIr_mar : (s.setIr v).mar = s.mar := rfl
@[simp] theorem State.setIr_halted : (s.setIr v).halted = s.halted := rfl
@[simp] theorem State.setIr_tState : (s.setIr v).tState = s.tState := rfl
@[simp] theorem State.setIr_draws : (s.setIr v).draws = s.draws := rfl
end

section
variable (s : State) (v : Addr)
@[simp] theorem State.setPc_mem : (s.setPc v).mem = s.mem := rfl
@[simp] theorem State.setPc_a : (s.setPc v).a = s.a := rfl
@[simp] theorem State.setPc_b : (s.setPc v).b = s.b := rfl
@[simp] theorem State.setPc_out : (s.setPc v).out = s.out := rfl
@[simp] theorem State.setPc_ir : (s.setPc v).ir = s.ir := rfl
@[simp] theorem State.setPc_pc : (s.setPc v).pc = v := rfl
@[simp] theorem State.setPc_mar : (s.setPc v).mar = s.mar := rfl
@[simp] theorem State.setPc_halted : (s.setPc v).halted = s.halted := rfl
@[simp] theorem State.setPc_tState : (s.setPc v).tState = s.tState := rfl
@[simp] theorem State.setPc_draws : (s.setPc v).draws = s.draws := rfl
end

section
variable (s : State) (v : Addr)
@[simp] theorem State.setMar_mem : (s.setMar v).mem = s.mem := rfl
@[simp] theorem State.setMar_a : (s.setMar v).a = s.a := rfl
@[simp] theorem State.setMar_b : (s.setMar v).b = s.b := rfl
@[simp] theorem State.setMar_out : (s.setMar v).out = s.out := rfl
@[simp] theorem State.setMar_ir : (s.setMar v).ir = s.ir := rfl
@[simp] theorem State.setMar_pc : (s.setMar v).pc = s.pc := rfl
@[simp] theorem State.setMar_mar : (s.setMar v).mar = v := rfl
@[simp] theorem State.setMar_halted : (s.setMar v).halted = s.halted := rfl
@[simp] theorem State.setMar_tState : (s.setMar v).tState = s.tState := rfl
@[simp] theorem State.setMar_draws : (s.setMar v).draws = s.draws := rfl
end

section
variable (s : State) (v : Bool)
@[simp] theorem State.setHalted_mem : (s.setHalted v).mem = s.mem := rfl
@[simp] theorem State.setHalted_a : (s.setHalted v).a = s.a := rfl
@[simp] theorem State.setHalted_b : (s.setHalted v).b = s.b := rfl
@[simp] theorem State.setHalted_out : (s.setHalted v).out = s.out := rfl
@[simp] theorem State.setHalted_ir : (s.setHalted v).ir = s.ir := rfl
@[simp] theorem State.setHalted_pc : (s.setHalted v).pc = s.pc := rfl
@[simp] theorem State.setHalted_mar : (s.setHalted v).mar = s.mar := rfl
@[simp] theorem State.setHalted_halted : (s.setHalted v).halted = v := rfl
@[simp] theorem State.setHalted_tState : (s.setHalted v).tState = s.tState := rfl
@[simp] theorem State.setHalted_draws : (s.setHalted v).draws = s.draws := rfl
end

section
variable (s : State)
@[simp] theorem State.drawTState_mem : s.drawTState.mem = s.mem := rfl
@[simp] theorem State.drawTState_a : s.drawTState.a = s.a := rfl
@[simp] theorem State.drawTState_b : s.drawTState.b = s.b := rfl
@[simp] theorem State.drawTState_out : s.drawTState.out = s.out := rfl
@[simp] theorem State.drawTState_ir : s.drawTState.ir = s.ir := rfl
@[simp] theorem State.drawTState_pc : s.drawTState.pc = s.pc := rfl
@[simp] theorem State.drawTState_mar : s.drawTState.mar = s.mar := rfl
@[simp] theorem State.drawTState_halted : s.drawTState.halted = s.halted := rfl
@[simp] theorem State.drawTState_tState : s.drawTState.tState = Config.freeTState s.draws := rfl
@[simp] theorem State.drawTState_draws : s.drawTState.draws = s.draws + 1 := rfl

@[simp] theorem State.reset_mem : State.reset.mem = [] := rfl
@[simp] theorem State.reset_a : State.reset.a = 0 := rfl
@[simp] theorem State.reset_b : State.reset.b = 0 := rfl
@[simp] theorem State.reset_out : State.reset.out = 0 := rfl
@[simp] theorem State.reset_ir : State.reset.ir = 0 := rfl
@[simp] theorem State.reset_pc : State.reset.pc = 0 := rfl
@[simp] theorem State.reset_mar : State.reset.mar = 0 := rfl
@[simp] theorem State.reset_halted : State.reset.halted = false := rfl
@[simp] theorem State.reset_tState : State.reset.tState = 0 := rfl
@[simp] theorem State.reset_draws : State.reset.draws = 0 := rfl

@[simp] theorem resetOp_mem : (resetOp s).mem = s.mem := rfl
@[simp] theorem resetOp_a : (resetOp s).a = 0 := rfl
@[simp] theorem resetOp_b : (resetOp s).b = 0 := rfl
@[simp] theorem resetOp_out : (resetOp s).out = 0 := rfl
@[simp] theorem resetOp_ir : (resetOp s).ir = 0 := rfl
@[simp] theorem resetOp_pc : (resetOp s).pc = 0 := rfl
@[simp] theorem resetOp_mar : (resetOp s).mar = 0 := rfl
@[simp] theorem resetOp_halted : (resetOp s).halted = false := rfl
@[simp] theorem resetOp_tState : (resetOp s).tState = 0 := rfl
@[simp] theorem resetOp_draws : (resetOp s).draws = s.draws := rfl

@[simp] theorem fetch_mem : (fetch s).mem = s.mem := rfl
@[simp] theorem fetch_a : (fetch s).a = s.a := rfl
@[simp] theorem fetch_b : (fetch s).b = s.b := rfl
@[simp] theorem fetch_out : (fetch s).out = s.out := rfl
@[simp] theorem fetch_ir : (fetch s).ir = s.byteAtPc := rfl
@[simp] theorem fetch_pc : (fetch s).pc = nextAddr s.pc := rfl
@[simp] theorem fetch_mar : (fetch s).mar = s.pc := rfl
@[simp] theorem fetch_halted : (fetch s).halted = s.halted := rfl
@[simp] theorem fetch_tState : (fetch s).tState = Config.freeTState s.draws := rfl
@[simp] theorem fetch_draws : (fetch s).draws = s.draws + 1 := rfl

@[simp] theorem afterFault_decodeError (op : Nibble) (ir : Byte) : afterFault (.decodeError op ir s) = s := rfl
end

end Sys2Proof.Machine
end

