-- ==== Sys2Proof/Laws/Exec.lean ====
section
/-! SUPPORT. One lemma per meaning: the whole next state in one equation, and one inversion of the Step. -/
namespace Sys2Proof.Machine

@[simp] theorem aluAdd_eq (a b : Byte) : aluAdd a b = a + b := by
  unfold aluAdd
  rw [← Int.natCast_add, mask8_natCast, BitVec.ofNat_add]
  simp

@[simp] theorem aluSub_eq (a b : Byte) : aluSub a b = a - b := by
  apply BitVec.eq_of_toNat_eq
  have ha := a.isLt
  have hb := b.isLt
  simp only [aluSub, mask8, BitVec.toNat_ofInt, BitVec.toNat_sub]
  omega

@[simp] theorem nextAddr_eq (pc : Addr) : nextAddr pc = pc + 1#4 := by
  unfold nextAddr
  rw [show ((pc.toNat : Int) + 1) = ((pc.toNat + 1 : Nat) : Int) by simp, mask4_natCast, BitVec.ofNat_add]
  simp

@[simp] theorem selectCell_eq (addr : Addr) (s : State) : selectCell addr s = s.setMar addr := rfl

@[simp] theorem loadB_eq (addr : Addr) (s : State) :
    loadB addr s = (s.setMar addr).setB (Memory.read s.mem addr) := rfl

@[simp] theorem State.storeAtMar_eq (s : State) (v : Byte) :
    s.storeAtMar v = s.setMem (Memory.write s.mem s.mar v) := rfl

theorem raiseDecodeError_eq (op : Nibble) (s : State) :
    raiseDecodeError op s = .fault (.decodeError op s.ir s) := rfl

theorem exec_lda (addr : Addr) (s : State) :
    exec (.lda addr) s = .next ((s.setMar addr).setA (Memory.read s.mem addr)) := rfl

theorem exec_sta (addr : Addr) (s : State) :
    exec (.sta addr) s = .next ((s.setMar addr).setMem (Memory.write s.mem addr s.a)) := rfl

theorem exec_add (addr : Addr) (s : State) :
    exec (.add addr) s =
      .next (((s.setMar addr).setB (Memory.read s.mem addr)).setA (s.a + Memory.read s.mem addr)) := by
  rw [← aluAdd_eq]
  rfl

theorem exec_sub (addr : Addr) (s : State) :
    exec (.sub addr) s =
      .next (((s.setMar addr).setB (Memory.read s.mem addr)).setA (s.a - Memory.read s.mem addr)) := by
  rw [← aluSub_eq]
  rfl

theorem exec_out (ignored : Nibble) (s : State) : exec (.out ignored) s = .next (s.setOut s.a) := rfl

theorem exec_hlt (ignored : Nibble) (s : State) : exec (.hlt ignored) s = .next (s.setHalted true) := rfl

theorem step_halted {s : State} (h : s.halted = true) : step s = .next s := by simp [step, h]

/-- A running Step whose byte decodes is the instruction's execute phase on the fetched state. -/
theorem step_of_decode_ok {s : State} {i : Instr} (h : s.halted = false) (hd : decode s.byteAtPc = .ok i) :
    step s = exec i (fetch s) := by
  simp [step, h, hd]

theorem step_of_decode_error {s : State} {op : Nibble} {w : Byte} (h : s.halted = false)
    (hd : decode s.byteAtPc = .error (.illegalOpcode op w)) :
    step s = .fault (.decodeError op s.byteAtPc (fetch s)) := by
  simp [step, h, hd, raiseDecodeError]

/-- Everything a Step can do. -/
theorem step_cases (s : State) :
    (s.halted = true ∧ step s = .next s) ∨
    (s.halted = false ∧ ∃ i, decode s.byteAtPc = .ok i ∧ step s = exec i (fetch s)) ∨
    (s.halted = false ∧ ¬ legalOpcode (opcodeField s.byteAtPc) ∧
      step s = .fault (.decodeError (opcodeField s.byteAtPc) s.byteAtPc (fetch s))) := by
  cases h : s.halted with
  | true => exact .inl ⟨rfl, step_halted h⟩
  | false =>
    right
    rcases decode_cases s.byteAtPc with ⟨_, hd⟩ | ⟨_, hd⟩ | ⟨_, hd⟩ | ⟨_, hd⟩ | ⟨_, hd⟩ | ⟨_, hd⟩ | ⟨hl, hd⟩
    iterate 6 exact .inl ⟨rfl, _, hd, step_of_decode_ok h hd⟩
    exact .inr ⟨rfl, hl, step_of_decode_error h hd⟩

/-- A Step never refuses. -/
theorem step_ne_refused (s : State) (r : Refusal) : step s ≠ .refused r := by
  rcases step_cases s with ⟨_, h⟩ | ⟨_, i, _, h⟩ | ⟨_, _, h⟩
  · simp [h]
  · rw [h]
    cases i <;> simp [exec_lda, exec_add, exec_sub, exec_sta, exec_out, exec_hlt]
  · simp [h]

end Sys2Proof.Machine
end

