-- ==== Sys2Proof/Laws/Memory.lean ====
section
/-! SUPPORT. The memory array: what a read after a write gives, for every listing, and that a write keeps the
canonical form (spec/20_memory.md R30). -/
namespace Sys2Proof.Machine

@[simp] theorem Memory.lookup_nil (n : Nat) : Memory.lookup [] n = unlistedByte := rfl

theorem Memory.lookup_erase (m : Memory) (n x : Nat) :
    Memory.lookup (Memory.erase m n) x = if x = n then unlistedByte else Memory.lookup m x := by
  induction m with
  | nil => simp [Memory.erase]
  | cons c rest ih =>
    obtain ⟨k, u⟩ := c
    by_cases hk : k = n
    · simp only [Memory.erase, hk, if_true, ih, Memory.lookup]
      by_cases hx : x = n
      · simp [hx]
      · simp [hx, Ne.symm hx]
    · simp only [Memory.erase, hk, if_false, ih, Memory.lookup]
      by_cases hx : x = n
      · simp [hx, hk]
      · simp [hx]

theorem Memory.lookup_insert (m : Memory) (n x : Nat) (v : Byte) :
    Memory.lookup (Memory.insert m n v) x = if x = n then v else Memory.lookup m x := by
  induction m with
  | nil => simp [Memory.insert, Memory.lookup, eq_comm]
  | cons c rest ih =>
    obtain ⟨k, u⟩ := c
    by_cases hlt : n < k
    · simp [Memory.insert, hlt, Memory.lookup, eq_comm]
    · by_cases hk : n = k
      · subst hk
        by_cases hx : x = n
        · simp [Memory.insert, Memory.lookup, hx]
        · simp [Memory.insert, Memory.lookup, hx, Ne.symm hx]
      · simp only [Memory.insert, hlt, hk, if_false, Memory.lookup, ih]
        by_cases hx : x = n
        · simp [hx, Ne.symm hk]
        · simp [hx]

/-- The law of R30: the written cell reads as the value, every other cell as before. -/
theorem Memory.read_write (m : Memory) (addr x : Addr) (v : Byte) :
    Memory.read (Memory.write m addr v) x = if x = addr then v else Memory.read m x := by
  unfold Memory.read Memory.write
  have key : (x.toNat = addr.toNat) = (x = addr) := by rw [BitVec.toNat_inj]
  split
  · rename_i hv
    rw [Memory.lookup_erase, hv]
    simp only [key]
  · rw [Memory.lookup_insert]
    simp only [key]

theorem Memory.wfFrom_mono {m : Memory} {lo hi : Nat} (h : lo ≤ hi) (hm : Memory.wfFrom hi m = true) :
    Memory.wfFrom lo m = true := by
  cases m with
  | nil => rfl
  | cons c rest =>
    obtain ⟨k, u⟩ := c
    simp only [Memory.wfFrom, Bool.and_eq_true, decide_eq_true_eq] at hm ⊢
    obtain ⟨⟨⟨hk, hk16⟩, hu⟩, hrest⟩ := hm
    exact ⟨⟨⟨by omega, hk16⟩, hu⟩, hrest⟩

theorem Memory.wfFrom_erase {m : Memory} {lo n : Nat} (hm : Memory.wfFrom lo m = true) :
    Memory.wfFrom lo (Memory.erase m n) = true := by
  induction m generalizing lo with
  | nil => rfl
  | cons c rest ih =>
    obtain ⟨k, u⟩ := c
    simp only [Memory.wfFrom, Bool.and_eq_true, decide_eq_true_eq] at hm
    obtain ⟨⟨⟨hlo, hk⟩, hu⟩, hrest⟩ := hm
    simp only [Memory.erase]
    split
    · exact ih (Memory.wfFrom_mono (by omega) hrest)
    · simp only [Memory.wfFrom, Bool.and_eq_true, decide_eq_true_eq]
      exact ⟨⟨⟨hlo, hk⟩, hu⟩, ih hrest⟩

theorem Memory.wfFrom_insert {m : Memory} {lo n : Nat} {v : Byte} (hlo : lo ≤ n) (hn : n < 16)
    (hv : v ≠ unlistedByte) (hm : Memory.wfFrom lo m = true) : Memory.wfFrom lo (Memory.insert m n v) = true := by
  induction m generalizing lo with
  | nil => simp [Memory.insert, Memory.wfFrom, hlo, hn, hv]
  | cons c rest ih =>
    obtain ⟨k, u⟩ := c
    simp only [Memory.wfFrom, Bool.and_eq_true, decide_eq_true_eq] at hm
    obtain ⟨⟨⟨hk, hk16⟩, hu⟩, hrest⟩ := hm
    simp only [Memory.insert]
    split
    · simp only [Memory.wfFrom, Bool.and_eq_true, decide_eq_true_eq]
      exact ⟨⟨⟨hlo, hn⟩, hv⟩, ⟨⟨by omega, hk16⟩, hu⟩, hrest⟩
    · split
      · rename_i hnk
        subst hnk
        simp only [Memory.wfFrom, Bool.and_eq_true, decide_eq_true_eq]
        exact ⟨⟨⟨hlo, hn⟩, hv⟩, hrest⟩
      · simp only [Memory.wfFrom, Bool.and_eq_true, decide_eq_true_eq]
        exact ⟨⟨⟨hk, hk16⟩, hu⟩, ih (by omega) hrest⟩

/-- Every write keeps the canonical form. -/
theorem Memory.wf_write {m : Memory} (addr : Addr) (v : Byte) (hm : Memory.wf m = true) :
    Memory.wf (Memory.write m addr v) = true := by
  unfold Memory.wf at hm ⊢
  unfold Memory.write
  split
  · exact Memory.wfFrom_erase hm
  · rename_i hv
    exact Memory.wfFrom_insert (Nat.zero_le _) addr.isLt hv hm

theorem Memory.wf_memWrite {m : Memory} (addr v : Nat) (hm : Memory.wf m = true) :
    Memory.wf (memWrite addr v m) = true :=
  Memory.wf_write _ _ hm

theorem Memory.lookup_below {m : Memory} {lo n : Nat} (hm : Memory.wfFrom lo m = true) (h : n < lo) :
    Memory.lookup m n = unlistedByte := by
  induction m generalizing lo with
  | nil => rfl
  | cons c rest ih =>
    obtain ⟨k, u⟩ := c
    simp only [Memory.wfFrom, Bool.and_eq_true, decide_eq_true_eq] at hm
    obtain ⟨⟨⟨hk, _⟩, _⟩, hrest⟩ := hm
    have hkn : ¬ k = n := by omega
    simp only [Memory.lookup, hkn, if_false]
    exact ih hrest (by omega)

end Sys2Proof.Machine
end

