-- ==== Sys2Proof/Laws/Host.lean ====
section
/-! SUPPORT. One lemma per host operation over the Step's inversion: what the host is answered, what Run does with one
Step, what LoadProgram does with one pair, and that `runSteps` is the host's own run of the core. -/
namespace Sys2Proof.Machine

/-- Every execute phase completes (spec/40_instruction_cycle.md R79: the six arms cannot fail). -/
theorem exec_completes (i : Instr) (s : State) : ∃ t, exec i s = .next t := by
  cases i with
  | lda addr => exact ⟨_, exec_lda addr s⟩
  | add addr => exact ⟨_, exec_add addr s⟩
  | sub addr => exact ⟨_, exec_sub addr s⟩
  | sta addr => exact ⟨_, exec_sta addr s⟩
  | out ignored => exact ⟨_, exec_out ignored s⟩
  | hlt ignored => exact ⟨_, exec_hlt ignored s⟩

theorem hostStep_next (cfg : HostConfig) {s t : State} (h : s.halted = false) (hs : step s = .next t) :
    hostStep cfg s = (t, executedReport cfg) := by
  simp [hostStep, h, hs]

theorem hostStep_fault (cfg : HostConfig) {s : State} {f : Fault} (hs : step s = .fault f) :
    hostStep cfg s = (afterFault f, faultReport f) := by
  have h : s.halted = false := by
    cases h : s.halted with
    | false => rfl
    | true => rw [step_halted h] at hs; cases hs
  simp [hostStep, h, hs]

theorem hostRun_next (cfg : HostConfig) (n : Nat) {s t : State} (h : s.halted = false) (hs : step s = .next t) :
    hostRun cfg (n + 1) s =
      ⟨(hostRun cfg n t).state, executedReport cfg :: (hostRun cfg n t).reports, (hostRun cfg n t).ending⟩ := by
  simp [hostRun, h, hostStep_next cfg h hs, executedReport]

theorem runSteps_succ (k : Nat) {s t : State} (hs : step s = .next t) : runSteps (k + 1) s = runSteps k t := by
  simp [runSteps, hs]

theorem core_run_next (M : Host.Core) (k : Nat) {s t : M.State} (hs : M.step s = .next t) :
    M.run (k + 1) s = M.run k t := by
  rw [Host.Core.run.eq_def]
  simp [hs]

theorem core_run_fault (M : Host.Core) (k : Nat) {s : M.State} {f : M.Fault} (hs : M.step s = .fault f) :
    M.run (k + 1) s = .fault f := by
  rw [Host.Core.run.eq_def]
  simp [hs]

theorem runSteps_fault (k : Nat) {s : State} {f : Fault} (hs : step s = .fault f) : runSteps (k + 1) s = .fault f := by
  simp [runSteps, hs]

theorem core_run_eq_runSteps (k : Nat) (s : State) : Host.Core.run Sys2Proof.core k s = runSteps k s := by
  induction k generalizing s with
  | zero => rfl
  | succ k ih =>
    cases hs : step s with
    | next u => exact ((core_run_next Sys2Proof.core k hs).trans (ih u)).trans (runSteps_succ k hs).symm
    | fault f => exact (core_run_fault Sys2Proof.core k hs).trans (runSteps_fault k hs).symm
    | refused r => exact absurd hs (step_ne_refused s r)

theorem loadProgram_cons (address byte : Nat) (rest : List (Nat × Nat)) (s : State) :
    loadProgram ((address, byte) :: rest) s = loadProgram rest (s.setMem (memWrite address byte s.mem)) := rfl

theorem wf_loadProgram {s : State} (pairs : List (Nat × Nat)) (h : Memory.wf s.mem = true) :
    Memory.wf (loadProgram pairs s).mem = true := by
  induction pairs generalizing s with
  | nil => exact h
  | cons p rest ih =>
    obtain ⟨address, byte⟩ := p
    rw [loadProgram_cons]
    exact ih (Memory.wf_memWrite address byte h)

/-- Each execute phase keeps memory canonical. -/
theorem wf_exec {i : Instr} {s t : State} (h : Memory.wf s.mem = true) (he : exec i s = .next t) :
    Memory.wf t.mem = true := by
  cases i with
  | lda addr => rw [exec_lda] at he; cases he; exact h
  | add addr => rw [exec_add] at he; cases he; exact h
  | sub addr => rw [exec_sub] at he; cases he; exact h
  | sta addr => rw [exec_sta] at he; cases he; exact Memory.wf_write addr s.a h
  | out ignored => rw [exec_out] at he; cases he; exact h
  | hlt ignored => rw [exec_hlt] at he; cases he; exact h

end Sys2Proof.Machine
end

