-- ==== Sys2Proof/Laws/PerInstr.lean ====
section
/-! SUPPORT. Per-instruction families (LAWS.json). EncodedFields: the byte of an instruction has the numbers of its pair
in its two fields, the encoder's table and the well-formedness table having been written apart (spec/30_encoding.md R47). -/
namespace Sys2Proof.Laws

def EncodedFields.Statement (i : Instr) : Prop :=
  i.wellFormed = true ∧ (opcodeField (encode i)).toNat = i.fields.opcode ∧
    (operandField (encode i)).toNat = i.fields.operand

theorem encodedFields_of_operand {i : Instr} (hw : i.fields.opcodeFits = true ∧ i.fields.opcodeLegal = true)
    (ho : (opcodeOf i).toNat = i.fields.opcode) (hx : (operandOf i).toNat = i.fields.operand) :
    EncodedFields.Statement i := by
  have hlt := (operandOf i).isLt
  refine ⟨?_, by simpa [encode] using ho, by simpa [encode] using hx⟩
  simp [Instr.wellFormed, Fields.wellFormed, hw.1, hw.2, Fields.operandFits]
  omega

theorem EncodedFields.lda (addr : Addr) : EncodedFields.Statement (.lda addr) :=
  encodedFields_of_operand ⟨rfl, rfl⟩ rfl rfl

theorem EncodedFields.add (addr : Addr) : EncodedFields.Statement (.add addr) :=
  encodedFields_of_operand ⟨rfl, rfl⟩ rfl rfl

theorem EncodedFields.sub (addr : Addr) : EncodedFields.Statement (.sub addr) :=
  encodedFields_of_operand ⟨rfl, rfl⟩ rfl rfl

theorem EncodedFields.sta (addr : Addr) : EncodedFields.Statement (.sta addr) :=
  encodedFields_of_operand ⟨rfl, rfl⟩ rfl rfl

theorem EncodedFields.out (ignored : Nibble) : EncodedFields.Statement (.out ignored) :=
  encodedFields_of_operand ⟨rfl, rfl⟩ rfl rfl

theorem EncodedFields.hlt (ignored : Nibble) : EncodedFields.Statement (.hlt ignored) :=
  encodedFields_of_operand ⟨rfl, rfl⟩ rfl rfl

end Sys2Proof.Laws
end

