-- ==== Sys2Proof/Tests/Slice0.lean ====
section
/-! SUPPORT. Tests whose expected results are spec/95_test_vectors.md's (V, S, P) or written out from the encodings of
spec/30_encoding.md, and a witness for the hypotheses of each statement. -/
namespace Sys2Proof.Tests
open Sys2Proof Sys2Proof.Machine

/-! ### Well-formedness: one ill-formed pair for each check -/

theorem test_wf_accepts_lda_15 : (Instr.lda 15).wellFormed = true := by decide
theorem test_wf_refuses_operand_16 :
    (Fields.mk 1 16).operandFits = false ∧ (Fields.mk 1 16).wellFormed = false := by decide
theorem test_wf_refuses_opcode_17 :
    (Fields.mk 17 0).opcodeFits = false ∧ (Fields.mk 17 0).wellFormed = false := by decide
theorem test_wf_refuses_opcode_0_5_13 :
    (Fields.mk 0 0).opcodeLegal = false ∧ (Fields.mk 5 0).opcodeLegal = false ∧ (Fields.mk 13 0).wellFormed = false := by
  decide

/-! ### Words written out bit by bit: opcode in bits 7:4, operand in bits 3:0 (R47, R50) -/

theorem test_decode_lda : decode 0b00010110#8 = .ok (.lda 6) := by decide
theorem test_decode_add : decode 0b00101010#8 = .ok (.add 10) := by decide
theorem test_decode_sub : decode 0b00110001#8 = .ok (.sub 1) := by decide
theorem test_decode_sta : decode 0b01001000#8 = .ok (.sta 8) := by decide
theorem test_decode_out : decode 0b11100111#8 = .ok (.out 7) := by decide
theorem test_decode_hlt : decode 0b11111111#8 = .ok (.hlt 15) := by decide
theorem test_decode_illegal_0 : decode 0b00001111#8 = .error (.illegalOpcode 0 0x0F) := by decide
theorem test_decode_illegal_5 : decode 0b01010000#8 = .error (.illegalOpcode 5 0x50) := by decide
theorem test_decode_illegal_D : decode 0b11011111#8 = .error (.illegalOpcode 13 0xDF) := by decide
theorem test_encode_sta : encode (.sta 15) = 0x4F#8 := by decide
theorem test_table_word_hlt : decodeTableWord 8 0xF0 = some (.hlt 0) := by decide

/-! ### One Step on a small state -/

/-- Power-on, the cells given, `PC` and `A`. -/
def start (cells : List (Nat × Nat)) (pc : Addr) (a : Byte) : State :=
  ((loadProgram cells State.reset).setPc pc).setA a

/-- The state one Step leaves, whether it executed or faulted. -/
def after (s : State) : State :=
  match step s with
  | .next t => t
  | .fault f => afterFault f
  | .refused _ => s

/-- V12: an LDA of its own cell loads its own byte. -/
theorem test_lda_own_cell :
    (after (start [(3, 0x13)] 3 0)).a = 0x13 ∧ (after (start [(3, 0x13)] 3 0)).pc = 4 ∧
    (after (start [(3, 0x13)] 3 0)).mar = 3 := by decide

/-- V13: fetched at 15, `PC` wraps. -/
theorem test_lda_at_15 :
    (after (start [(15, 0x10), (0, 0x77)] 15 0)).a = 0x77 ∧ (after (start [(15, 0x10), (0, 0x77)] 15 0)).pc = 0 := by decide

/-- V14. -/
theorem test_sta_stores :
    Memory.read (after (start [(2, 0x48)] 2 0x0C)).mem 8 = 0x0C ∧ (after (start [(2, 0x48)] 2 0x0C)).a = 0x0C ∧
    (after (start [(2, 0x48)] 2 0x0C)).mar = 8 := by decide

/-- V15: a store over its own cell leaves `IR` and does not halt. -/
theorem test_sta_own_cell :
    Memory.read (after (start [(5, 0x45)] 5 0xF0)).mem 5 = 0xF0 ∧ (after (start [(5, 0x45)] 5 0xF0)).ir = 0x45 ∧
    (after (start [(5, 0x45)] 5 0xF0)).halted = false := by decide

/-- V18 (source S3): 250 + 10. -/
theorem test_add_wraps :
    (after (start [(0, 0x29), (9, 0x0A)] 0 0xFA)).a = 0x04 ∧ (after (start [(0, 0x29), (9, 0x0A)] 0 0xFA)).b = 0x0A := by
  decide

/-- V20b: an ADD of zero still writes `B`. -/
theorem test_add_zero_writes_b :
    (after ((start [(0, 0x29)] 0 0x42).setB 0x33)).a = 0x42 ∧ (after ((start [(0, 0x29)] 0 0x42).setB 0x33)).b = 0 := by decide

/-- V22 (source S4): 3 - 5. -/
theorem test_sub_underflows :
    (after (start [(0, 0x39), (9, 0x05)] 0 0x03)).a = 0xFE ∧ (after (start [(0, 0x39), (9, 0x05)] 0 0x03)).b = 0x05 := by
  decide

/-- V24b: 0 - 255. -/
theorem test_sub_255 : (after (start [(0, 0x39), (9, 0xFF)] 0 0)).a = 0x01 := by decide

/-- V29: ignored bits; `MAR` is the fetch address, not 7. -/
theorem test_out_ignored_bits :
    (after (start [(4, 0xE7)] 4 0x99)).out = 0x99 ∧ (after (start [(4, 0xE7)] 4 0x99)).mar = 4 ∧
    (after (start [(4, 0xE7)] 4 0x99)).pc = 5 := by decide

/-- V31: a HLT byte with all bits set, at 15. -/
theorem test_hlt_at_15 :
    (after (start [(15, 0xFF)] 15 0)).halted = true ∧ (after (start [(15, 0xFF)] 15 0)).pc = 0 ∧
    (after (start [(15, 0xFF)] 15 0)).mar = 15 := by decide

/-- V32: a halted core does not fetch. -/
theorem test_halted_step :
    (after ((start [(0, 0xE0)] 0 5).setHalted true)).pc = 0 ∧ (after ((start [(0, 0xE0)] 0 5).setHalted true)).out = 0 := by
  decide

/-- V25 (source S7): `A`, `B`, `OUT` unaltered, the fetch kept. -/
theorem test_fault_5F :
    (after (start [(0, 0x5F)] 0 0x11)).a = 0x11 ∧ (after (start [(0, 0x5F)] 0 0x11)).ir = 0x5F ∧
    (after (start [(0, 0x5F)] 0 0x11)).pc = 1 ∧ (after (start [(0, 0x5F)] 0 0x11)).halted = false := by decide

/-- V27: what the host is told, at 15. -/
theorem test_fault_report :
    (hostStep ⟨true, true, 1000⟩ (start [(15, 0xDF)] 15 1)).2 = .fault 0xD 0xDF ∧
    (hostStep ⟨true, true, 1000⟩ (start [(15, 0xDF)] 15 1)).1.pc = 0 := by decide

/-! ### The host's operations -/

/-- V33: Reset of a halted machine keeps memory. -/
theorem test_reset_keeps_memory :
    (resetOp ((start [(5, 0xF0)] 6 1).setHalted true)).halted = false ∧
    Memory.read (resetOp ((start [(5, 0xF0)] 6 1).setHalted true)).mem 5 = 0xF0 ∧
    (resetOp ((start [(5, 0xF0)] 6 1).setHalted true)).a = 0 := by decide

/-- V34: addresses and bytes wrap. -/
theorem test_load_wraps :
    (loadProgram [(16, 0x1A), (31, 0x2B), (3, 256), (4, 511), (5, 0x142)] State.reset).mem =
      [(0, 0x1A), (4, 0xFF), (5, 0x42), (15, 0x2B)] := by decide

/-- V35: the later pair wins, also through the wrap. -/
theorem test_load_later_wins : (loadProgram [(2, 1), (18, 2), (2, 3)] State.reset).mem = [(2, 3)] := by decide

/-- V36: a Run with bound 0. -/
theorem test_run_zero : hostRun ⟨true, true, 1000⟩ 0 (start [(0, 0xE0)] 0 5) = ⟨start [(0, 0xE0)] 0 5, [], .done⟩ := by decide

/-- The bound when the host gives none (R102). -/
theorem test_default_bound : ({ instructionTrace := true, microstepTrace := false } : HostConfig).maxSteps = 1000 := by decide

/-- R131: the record of a fault survives a LoadProgram and goes with a Reset. -/
theorem test_sticky_fault :
    (applyOps ⟨false, false, 1000⟩ [.step, .loadProgram [(0, 0xF0)]] Session.powerOn).firstFault = some (0, 0) ∧
    (applyOps ⟨false, false, 1000⟩ [.step, .reset] Session.powerOn).firstFault = none := by decide

/-- R106: the log takes `A` at an OUT and nothing at a HLT. -/
theorem test_output_log :
    outputLog 1 (start [(0, 0xE0)] 0 0x0C) = [0x0C] ∧ outputLog 1 (start [(0, 0xF0)] 0 0x0C) = [] := by decide

/-! ### The assembler (V40 to V59) -/

/-- Bytes or the reason of the error. -/
def assembled (lines : List Text) : Except AsmReason (List Byte) :=
  match assemble {} lines with
  | .ok p => .ok p.bytes
  | .error e => .error e.reason

/-- V41: `lda 0xF`. -/
theorem test_asm_lda_hex : assembled [['l', 'd', 'a', ' ', '0', 'x', 'F']] = .ok [0x1F] := by decide

/-- V45: `STA 31`. -/
theorem test_asm_sta_31 : assembled [['S', 'T', 'A', ' ', '3', '1']] = .ok [0x4F] := by decide

/-- V49: `.BYTE 256` and `.BYTE 0x1FF`. -/
theorem test_asm_byte_masks :
    assembled [['.', 'B', 'Y', 'T', 'E', ' ', '2', '5', '6'], ['.', 'B', 'Y', 'T', 'E', ' ', '0', 'x', '1', 'F', 'F']] =
      .ok [0x00, 0xFF] := by decide

/-- V50: `HLT ; stop`. -/
theorem test_asm_comment : assembled [['H', 'L', 'T', ' ', ';', ' ', 's']] = .ok [0xF0] := by decide

/-- V51: a forward reference. -/
theorem test_asm_forward :
    assembled [['L', 'D', 'A', ' ', 'x'], ['H', 'L', 'T'], ['x', ':'], ['.', 'B', 'Y', 'T', 'E', ' ', '9']] =
      .ok [0x12, 0xF0, 0x09] := by decide

/-- V53: labels are case-sensitive. -/
theorem test_asm_label_case :
    assembled [['X', ':'], ['.', 'B', 'Y', 'T', 'E', ' ', '1'], ['x', ':'], ['.', 'B', 'Y', 'T', 'E', ' ', '2'],
      ['L', 'D', 'A', ' ', 'X'], ['L', 'D', 'A', ' ', 'x']] = .ok [0x01, 0x02, 0x10, 0x11] := by decide

/-- V54: `MOV 3`, an AssemblyError naming `MOV`. -/
theorem test_asm_unknown : assemble {} [['M', 'O', 'V', ' ', '3']] = .error ⟨.unknownToken, ['M', 'O', 'V']⟩ := by decide

/-- V55, V56, V57: no such label, no operand, a label and a statement on one line. -/
theorem test_asm_refusals :
    assembled [['L', 'D', 'A', ' ', 'n', 'o']] = .error .badOperand ∧ assembled [['L', 'D', 'A']] = .error .missingOperand ∧
    assembled [['a', ':', ' ', '.', 'B', 'Y', 'T', 'E', ' ', '5']] = .error .unknownToken := by decide

/-- V58: seventeen `OUT` lines, and sixteen. -/
theorem test_asm_seventeen :
    assembled (List.replicate 17 ['O', 'U', 'T']) = .error .tooManySlots ∧
    assembled (List.replicate 16 ['O', 'U', 'T']) = .ok (List.replicate 16 0xE0) := by decide

/-- Log entry 17, the model's reading: `OUT x:` ends in a colon and is a label line with an illegal name. -/
theorem test_asm_out_colon : assembled [['O', 'U', 'T', ' ', 'x', ':']] = .error .badLabel := by decide

/-- V59: an operand with the immediate marker, were it `#`. -/
theorem test_asm_immediate :
    (assemble ⟨some '#'⟩ [['L', 'D', 'A', ' ', '#', '5']]).toOption = none := by decide

/-! ### Witnesses: concrete states that meet the hypotheses of each statement, one for each of its clauses -/

/-- A running core whose next byte has the opcode, and whose Step executes. -/
def Executes (op : Nibble) (s : State) : Prop := s.halted = false ∧ s.opcodeAtPc = op ∧ ∃ t, step s = .next t

/-- The six opcodes, with operands 0 and 15 and fetches from 0 and 15. -/
theorem test_executes_all :
    Executes 0x1 (start [(15, 0x1F)] 15 1) ∧ Executes 0x2 (start [(0, 0x20)] 0 0xFF) ∧ Executes 0x3 (start [(15, 0x30)] 15 0) ∧
    Executes 0x4 (start [(0, 0x4F)] 0 7) ∧ Executes 0xE (start [(15, 0xEF)] 15 9) ∧ Executes 0xF (start [(15, 0xFF)] 15 0) :=
  ⟨⟨rfl, rfl, _, rfl⟩, ⟨rfl, rfl, _, rfl⟩, ⟨rfl, rfl, _, rfl⟩, ⟨rfl, rfl, _, rfl⟩, ⟨rfl, rfl, _, rfl⟩, ⟨rfl, rfl, _, rfl⟩⟩

theorem witness_DecodeOfEncodeIsTheInstruction :
    (Instr.lda 15).wellFormed = true ∧ (Instr.out 15).wellFormed = true ∧ (Instr.hlt 0).wellFormed = true := by decide

theorem witness_ExecutePhaseFrame :
    (∃ t, exec (.lda 15) State.reset = .next t) ∧ (∃ t, exec (.add 0) State.reset = .next t) ∧
    (∃ t, exec (.sub 15) State.reset = .next t) ∧ (∃ t, exec (.sta 15) State.reset = .next t) ∧ (0 : Addr) ≠ effectiveAddress 15 ∧
    (∃ t, exec (.out 15) State.reset = .next t) ∧ ∃ t, exec (.hlt 15) State.reset = .next t :=
  ⟨⟨_, rfl⟩, ⟨_, rfl⟩, ⟨_, rfl⟩, ⟨_, rfl⟩, by decide, ⟨_, rfl⟩, ⟨_, rfl⟩⟩

theorem witness_StepRunsTheDecodedInstruction :
    (start [(15, 0x4F)] 15 0).halted = false ∧
    decode (Memory.read (start [(15, 0x4F)] 15 0).mem (start [(15, 0x4F)] 15 0).pc) = .ok (.sta 15) ∧
    decode (Memory.read (start [(15, 0x50)] 15 0).mem (start [(15, 0x50)] 15 0).pc) = .error (.illegalOpcode 5 0x50) := by decide

theorem witness_PlacedWordIsWhatRuns : decodeTableWord 8 0x1F = some (.lda 15) ∧ (15 : Addr) ≠ State.reset.pc := by decide

theorem witness_HaltedCoreNeverChanges : (State.reset.setHalted true).halted = true := by decide

theorem witness_AccumulatorAfterStep :
    Executes 0x1 (start [(15, 0x1F)] 15 1) ∧ Executes 0x2 (start [(0, 0x20)] 0 0xFF) ∧ Executes 0x3 (start [(15, 0x30)] 15 0) ∧
    Executes 0x4 (start [(0, 0x4F)] 0 7) ∧ Executes 0xE (start [(15, 0xEF)] 15 9) ∧ Executes 0xF (start [(15, 0xFF)] 15 0) :=
  test_executes_all

theorem witness_BHoldsTheSecondOperand :
    Executes 0x2 (start [(0, 0x20)] 0 0xFF) ∧ Executes 0x3 (start [(15, 0x30)] 15 0) ∧ Executes 0x1 (start [(15, 0x1F)] 15 1) :=
  ⟨test_executes_all.2.1, test_executes_all.2.2.1, test_executes_all.1⟩

theorem witness_OutRegisterAfterStep :
    Executes 0xE (start [(15, 0xEF)] 15 9) ∧ Executes 0xF (start [(15, 0xFF)] 15 0) :=
  ⟨test_executes_all.2.2.2.2.1, test_executes_all.2.2.2.2.2⟩

theorem witness_ProgramCounterAfterStep :
    Executes 0xF (start [(15, 0xFF)] 15 0) ∧ (State.reset.setHalted true).halted = true ∧
    (∃ t, step (State.reset.setHalted true) = .next t) ∧ ∃ t, exec (.lda 15) (State.reset.setPc 15) = .next t :=
  ⟨test_executes_all.2.2.2.2.2, rfl, ⟨_, rfl⟩, ⟨_, rfl⟩⟩

theorem witness_AddressRegisterAfterStep :
    Executes 0x1 (start [(15, 0x1F)] 15 1) ∧ Executes 0xE (start [(15, 0xEF)] 15 9) ∧ Executes 0xF (start [(15, 0xFF)] 15 0) :=
  ⟨test_executes_all.1, test_executes_all.2.2.2.2.1, test_executes_all.2.2.2.2.2⟩

theorem witness_HaltLatchAfterStep :
    (∃ t, step (start [(15, 0xFF)] 15 0) = .next t) ∧ (∃ f, step State.reset = .fault f) ∧
    (State.reset.setHalted true).halted = true := ⟨⟨_, rfl⟩, ⟨_, rfl⟩, rfl⟩

theorem witness_MemoryAfterStep :
    Executes 0x4 (start [(0, 0x4F)] 0 7) ∧ (start [(0, 0x4F)] 0 7).operandAtPc = 15 ∧ Executes 0x1 (start [(15, 0x1F)] 15 1) :=
  ⟨test_executes_all.2.2.2.1, rfl, test_executes_all.1⟩

theorem witness_StoreIsSeenByTheNextFetch :
    (start [(15, 0x40)] 15 0xE0).halted = false ∧
    (start [(15, 0x40)] 15 0xE0).byteAtPc = 0x4#4 ++ ((start [(15, 0x40)] 15 0xE0).pc + 1) ∧
    decode (start [(15, 0x40)] 15 0xE0).a = .ok (.out 0) ∧
    (start [(15, 0x4F)] 15 0xF0).byteAtPc = 0x4#4 ++ (start [(15, 0x4F)] 15 0xF0).pc := by decide

theorem witness_MemoryReadAfterWrite : 31 % 16 = 15 % 16 ∧ 16 % 16 ≠ 15 % 16 := by decide

theorem witness_CanonicalMemoryIsItsCells :
    Memory.wf [(0, 1), (15, 0xFF)] = true ∧ ∀ x : Addr, Memory.read [(0, 1), (15, 0xFF)] x = Memory.read [(0, 1), (15, 0xFF)] x :=
  ⟨by decide, fun _ => rfl⟩

theorem witness_DecodeErrorIsTheOnlyFault :
    (start [(0, 0x0F)] 0 0).opcodeAtPc.toNat = 0 ∧ (start [(0, 0x50)] 0 0).opcodeAtPc.toNat = 5 ∧
    (start [(15, 0xDF)] 15 0).opcodeAtPc.toNat = 13 ∧
    ∃ op ir left, step (start [(15, 0xDF)] 15 0) = .fault (.decodeError op ir left) := ⟨rfl, rfl, rfl, _, _, _, rfl⟩

theorem witness_StateLeftByDecodeError :
    ∃ op ir left, step (start [(15, 0xDF), (0, 0x1F)] 15 0) = .fault (.decodeError op ir left) ∧
      decode (Memory.read (start [(15, 0xDF), (0, 0x1F)] 15 0).mem left.pc) = .ok (.lda 15) := ⟨_, _, _, rfl, rfl⟩

theorem witness_RunFollowsItsLoop :
    (State.reset.setHalted true).halted = true ∧ Executes 0xF (start [(15, 0xFF)] 15 0) ∧
    State.reset.halted = false ∧ ∃ op ir left, step State.reset = .fault (.decodeError op ir left) :=
  ⟨rfl, test_executes_all.2.2.2.2.2, rfl, _, _, _, rfl⟩

/-- Both ways a Run can end, and the bound, in one Step. -/
theorem witness_RunEndsByHaltFaultOrBound :
    (hostRun ⟨false, false, 1000⟩ 1 State.reset).ending = .fault 0 0 ∧
    (hostRun ⟨false, false, 1000⟩ 1 (start [(15, 0xFF)] 15 0)).ending = .done ∧
    (hostRun ⟨false, false, 1000⟩ 1 (start [(15, 0xEF)] 15 0)).ending = .done := by decide

theorem witness_RunsCompose :
    (hostRun ⟨false, false, 1000⟩ 1 (start [(15, 0xEF)] 15 0)).ending = .done ∧
    (hostRun ⟨false, false, 1000⟩ 1 State.reset).ending ≠ .done := by decide

theorem witness_TraceFlagsDoNotAffectState : Executes 0x1 (start [(15, 0x1F)] 15 1) := test_executes_all.1

theorem witness_OutHoldsTheLastLoggedOutput : ∃ t, runSteps 1 (start [(15, 0xEF)] 15 9) = .next t := ⟨_, rfl⟩

theorem witness_FirstFaultIsSticky :
    (Session.mk State.reset (some (0xD, 0xDF))).firstFault = some (0xD, 0xDF) ∧
    ∀ op ∈ [HostOp.step, HostOp.loadProgram [(15, 255)], HostOp.run none], op ≠ HostOp.reset := by decide

theorem reset_inv : State.reset.Inv := ⟨rfl, fun h => nomatch h⟩

/-- A halted core: the HLT byte 0xFF was fetched from 15, and `PC` has wrapped to 0. -/
def haltedAt15 : State := (((start [(15, 0xFF)] 0 0).setIr 0xFF).setMar 15).setHalted true

theorem haltedAt15_inv : haltedAt15.halted = true ∧ haltedAt15.Inv := ⟨rfl, rfl, fun _ => ⟨by decide, by decide⟩⟩

theorem witness_InvariantAtReset : haltedAt15.Inv := haltedAt15_inv.2

/-- A running state whose Step stores the value that removes a cell, a halted one, and a faulting one. -/
theorem witness_StepKeepsTheInvariant :
    (start [(0, 0x4F), (15, 7)] 0 0).Inv ∧ (∃ t, step (start [(0, 0x4F), (15, 7)] 0 0) = .next t) ∧
    haltedAt15.Inv ∧ haltedAt15.halted = true ∧ (∃ t, step haltedAt15 = .next t) ∧
    State.reset.Inv ∧ ∃ f, step State.reset = .fault f :=
  ⟨⟨rfl, fun h => nomatch h⟩, ⟨_, rfl⟩, haltedAt15_inv.2, rfl, ⟨_, rfl⟩, reset_inv, ⟨_, rfl⟩⟩

theorem witness_HostOperationsKeepTheInvariant :
    Session.powerOn.state.Inv ∧ (Session.mk haltedAt15 (some (0xD, 0xDF))).state.Inv := ⟨reset_inv, haltedAt15_inv.2⟩

/-- Sixteen OUT bytes (source S2), as a memory of 16 cells. -/
def sixteenOuts : State := loadProgram ((List.range 16).map (fun i => (i, 0xE0))) State.reset

theorem witness_StorelessProgramWithoutHltRunsForever :
    sixteenOuts.halted = false ∧ ∀ x : Addr, opcodeField (Memory.read sixteenOuts.mem x) = 0xE#4 := by decide

/-- With all cells OUT, a Step goes on to a state of the same kind, so the hypothesis about every later state holds. -/
theorem sixteenOuts_run (k : Nat) : ∃ t, runSteps k sixteenOuts = .next t ∧ t.mem = sixteenOuts.mem ∧ t.halted = false := by
  suffices h : ∀ s : State, s.mem = sixteenOuts.mem → s.halted = false →
      ∃ t, runSteps k s = .next t ∧ t.mem = sixteenOuts.mem ∧ t.halted = false from
    h sixteenOuts rfl rfl
  induction k with
  | zero => exact fun s hm hh => ⟨s, rfl, hm, hh⟩
  | succ k ih =>
    intro s hm hh
    have hb : ∀ x : Addr, decode (Memory.read sixteenOuts.mem x) = .ok (.out 0) := by decide
    have hd : decode (fetch s).ir = .ok (.out 0) := by
      have := hb s.pc
      rw [← hm] at this
      exact this
    have hs : step s = .next ((fetch s).setOut s.a) := by
      simp only [step, hh, hd]
      rfl
    obtain ⟨t, ht, hmt, hht⟩ := ih ((fetch s).setOut s.a) hm hh
    exact ⟨t, by simp only [runSteps, hs, ht], hmt, hht⟩

theorem witness_ProgramCounterWrapsModulo16 :
    sixteenOuts.halted = false ∧ (∃ t, runSteps 16 sixteenOuts = .next t ∧ t.halted = false) ∧
    ∀ k t, runSteps k sixteenOuts = .next t → t.opcodeAtPc = 0xE#4 := by
  refine ⟨rfl, ?_, ?_⟩
  · obtain ⟨t, ht, _, hh⟩ := sixteenOuts_run 16
    exact ⟨t, ht, hh⟩
  · intro k t h
    obtain ⟨u, hu, hm, _⟩ := sixteenOuts_run k
    rw [hu] at h
    cases h
    have := witness_StorelessProgramWithoutHltRunsForever.2 t.pc
    rw [← hm] at this
    exact this

/-- One HLT at 15, reached in one Step. -/
theorem witness_RunReachesTheHalt : ∃ t, HaltsAfter 1 (start [(15, 0xFF)] 15 0) t :=
  ⟨_, rfl, rfl, fun j hj => ⟨start [(15, 0xFF)] 15 0, by obtain rfl : j = 0 := by omega
                                                         rfl, rfl⟩⟩

/-- Each of the three ends is some program's. -/
theorem witness_RunHasExactlyOneEnd :
    (∃ t, HaltsAfter 1 (start [(15, 0xFF)] 15 0) t) ∧ (∃ f, FaultsAfter 0 State.reset f) ∧ RunsForever sixteenOuts :=
  ⟨witness_RunReachesTheHalt, ⟨_, _, rfl, rfl⟩, fun k => by
    obtain ⟨t, ht, _, hh⟩ := sixteenOuts_run k
    exact ⟨t, ht, hh⟩⟩

theorem witness_OnlyMemoryAccumulatorAndCounterMatter :
    SameCells (start [(15, 0x2F)] 15 1) ((start [(15, 0x2F)] 15 1).setB 0xFF) ∧
    ((start [(15, 0x2F)] 15 1).setB 0xFF).a = (start [(15, 0x2F)] 15 1).a ∧
    ((start [(15, 0x2F)] 15 1).setB 0xFF).pc = (start [(15, 0x2F)] 15 1).pc ∧
    ((start [(15, 0x2F)] 15 1).setB 0xFF).halted = (start [(15, 0x2F)] 15 1).halted := ⟨fun _ => rfl, rfl, rfl, rfl⟩

theorem witness_CommentsAndBlanksAreIgnored : List.all [' ', '\t'] isBlank = true ∧ List.all [] isBlank = true := by decide

theorem witness_LabelIsBoundToItsSlot :
    layoutFrom 0 [] [['O', 'U', 'T'], ['x', ':'], ['H', 'L', 'T']] = .ok ([.instr .out [], .instr .hlt []], [(['x'], 1)]) := by
  decide

theorem witness_SlotEncoding :
    readLiteral ['0', 'x', '1', 'F', 'F'] = some 511 ∧ resolveOperand {} [(['x'], 15)] ['x'] = .ok 15 ∧
    resolveOperand {} [] ['3', '1'] = .ok 31 := by decide

theorem witness_CaseOfMnemonicsAndLabels :
    List.map Char.toUpper ['l', 'd', 'A'] = List.map Char.toUpper ['L', 'D', 'A'] ∧ (['x'] : Text) ≠ ['X'] := by decide

theorem witness_AssembledProgramFits : (∃ p, assemble {} (List.replicate 16 ['O', 'U', 'T']) = .ok p) := ⟨_, rfl⟩

theorem witness_AssembledProgramLoadsInOrder : (∃ p, assemble {} [['H', 'L', 'T']] = .ok p ∧ p.bytes = [0xF0]) := ⟨_, rfl, rfl⟩

end Sys2Proof.Tests
end

section
/-! PROOFS. The registers around one Step (spec/10_state.md R12, R13, R14, R16, R26): the inversion of a Step that
completes, what it leaves in each register, and that `B`, `OUT` and `PC` are no input of an execute phase. -/
namespace Sys2Proof.Machine

/-! ### A Step that completes -/

/-- A decoded instruction has the byte's two fields. -/
theorem fields_of_decode_ok {w : Byte} {i : Instr} (hd : decode w = .ok i) :
    opcodeField w = opcodeOf i ∧ operandField w = operandOf i := by
  rcases decode_cases w with ⟨hop, h⟩ | ⟨hop, h⟩ | ⟨hop, h⟩ | ⟨hop, h⟩ | ⟨hop, h⟩ | ⟨hop, h⟩ | ⟨_, h⟩
  iterate 6 (rw [h] at hd; cases hd; exact ⟨hop, rfl⟩)
  rw [h] at hd
  cases hd

/-- A running Step that completes ran the execute phase of the instruction at `PC` on the fetched state (R75). -/
theorem exec_of_step_next {s t : State} (hr : s.halted = false) (hs : step s = .next t) :
    ∃ i, decode s.byteAtPc = .ok i ∧ exec i (fetch s) = .next t := by
  rcases step_cases s with ⟨hh, _⟩ | ⟨_, i, hd, he⟩ | ⟨_, _, hf⟩
  · rw [hr] at hh
    cases hh
  · exact ⟨i, hd, he ▸ hs⟩
  · rw [hf] at hs
    cases hs

/-- The whole state a completed Step leaves, for each of the six opcodes. -/
theorem step_next_cases {s t : State} (hr : s.halted = false) (hs : step s = .next t) :
    (s.opcodeAtPc = 0x1#4 ∧ t = ((fetch s).setMar s.operandAtPc).setA s.operandCell) ∨
    (s.opcodeAtPc = 0x2#4 ∧
      t = (((fetch s).setMar s.operandAtPc).setB s.operandCell).setA (s.a + s.operandCell)) ∨
    (s.opcodeAtPc = 0x3#4 ∧
      t = (((fetch s).setMar s.operandAtPc).setB s.operandCell).setA (s.a - s.operandCell)) ∨
    (s.opcodeAtPc = 0x4#4 ∧
      t = ((fetch s).setMar s.operandAtPc).setMem (Memory.write s.mem s.operandAtPc s.a)) ∨
    (s.opcodeAtPc = 0xE#4 ∧ t = (fetch s).setOut s.a) ∨
    (s.opcodeAtPc = 0xF#4 ∧ t = (fetch s).setHalted true) := by
  obtain ⟨i, hd, he⟩ := exec_of_step_next hr hs
  obtain ⟨hop, harg⟩ : s.opcodeAtPc = opcodeOf i ∧ s.operandAtPc = operandOf i := fields_of_decode_ok hd
  rw [hop, State.operandCell, harg]
  cases i with
  | lda addr => rw [exec_lda] at he; cases he; exact .inl ⟨rfl, rfl⟩
  | add addr => rw [exec_add] at he; cases he; exact .inr (.inl ⟨rfl, rfl⟩)
  | sub addr => rw [exec_sub] at he; cases he; exact .inr (.inr (.inl ⟨rfl, rfl⟩))
  | sta addr => rw [exec_sta] at he; cases he; exact .inr (.inr (.inr (.inl ⟨rfl, rfl⟩)))
  | out ignored => rw [exec_out] at he; cases he; exact .inr (.inr (.inr (.inr (.inl ⟨rfl, rfl⟩))))
  | hlt ignored => rw [exec_hlt] at he; cases he; exact .inr (.inr (.inr (.inr (.inr ⟨rfl, rfl⟩))))

/-! ### What a completed Step leaves in each register -/

section
variable {s t : State} (hr : s.halted = false) (hs : step s = .next t)
include hr hs

theorem step_next_a :
    t.a = (if s.opcodeAtPc = 0x1#4 then s.operandCell
      else if s.opcodeAtPc = 0x2#4 then s.a + s.operandCell
      else if s.opcodeAtPc = 0x3#4 then s.a - s.operandCell
      else s.a) := by
  rcases step_next_cases hr hs with ⟨hop, rfl⟩ | ⟨hop, rfl⟩ | ⟨hop, rfl⟩ | ⟨hop, rfl⟩ | ⟨hop, rfl⟩ | ⟨hop, rfl⟩ <;>
    simp [hop]

theorem step_next_b :
    t.b = (if s.opcodeAtPc = 0x2#4 ∨ s.opcodeAtPc = 0x3#4 then s.operandCell else s.b) := by
  rcases step_next_cases hr hs with ⟨hop, rfl⟩ | ⟨hop, rfl⟩ | ⟨hop, rfl⟩ | ⟨hop, rfl⟩ | ⟨hop, rfl⟩ | ⟨hop, rfl⟩ <;>
    simp [hop]

theorem step_next_out : t.out = (if s.opcodeAtPc = 0xE#4 then s.a else s.out) := by
  rcases step_next_cases hr hs with ⟨hop, rfl⟩ | ⟨hop, rfl⟩ | ⟨hop, rfl⟩ | ⟨hop, rfl⟩ | ⟨hop, rfl⟩ | ⟨hop, rfl⟩ <;>
    simp [hop]

/-- STA's write of the cell its operand names, and R31's frame for every other cell and Step. -/
theorem step_next_read (x : Addr) :
    Memory.read t.mem x = if s.opcodeAtPc = 0x4#4 ∧ x = s.operandAtPc then s.a else Memory.read s.mem x := by
  rcases step_next_cases hr hs with ⟨hop, rfl⟩ | ⟨hop, rfl⟩ | ⟨hop, rfl⟩ | ⟨hop, rfl⟩ | ⟨hop, rfl⟩ | ⟨hop, rfl⟩ <;>
    simp [hop, Memory.read_write]

end

/-! ### `PC` and `IR` belong to the fetch -/

/-- No execute phase writes `IR` or `PC`. -/
theorem exec_ir_pc {i : Instr} {s t : State} (he : exec i s = .next t) : t.ir = s.ir ∧ t.pc = s.pc := by
  cases i <;> cases he <;> exact ⟨rfl, rfl⟩

theorem nextAddr_toNat (pc : Addr) : (nextAddr pc).toNat = (pc.toNat + 1) % 16 := by
  simp [BitVec.toNat_add]

@[simp] theorem loadProgram_pc (pairs : List (Nat × Nat)) (s : State) : (loadProgram pairs s).pc = s.pc := by
  induction pairs generalizing s with
  | nil => rfl
  | cons p rest ih => exact ih _

/-! ### A register that is no input: replacing it before commutes with the execute phase -/

/-- No execute phase reads `PC` (R16). -/
theorem exec_setPc {i : Instr} {s t : State} (p : Addr) (he : exec i s = .next t) :
    exec i (s.setPc p) = .next (t.setPc p) := by
  cases i <;> cases he <;> rfl

/-- No execute phase reads the `B` it finds: ADD and SUB overwrite it first, the others carry it along (R13). -/
theorem exec_setB {i : Instr} {s t : State} (v : Byte) (he : exec i s = .next t) :
    exec i (s.setB v) = .next (if opcodeOf i = 0x2#4 ∨ opcodeOf i = 0x3#4 then t else t.setB v) := by
  cases i <;> cases he <;> rfl

/-- No execute phase reads `OUT`: OUT overwrites it, the others carry it along (R14). -/
theorem exec_setOut {i : Instr} {s t : State} (v : Byte) (he : exec i s = .next t) :
    exec i (s.setOut v) = .next (if opcodeOf i = 0xE#4 then t else t.setOut v) := by
  cases i <;> cases he <;> rfl

theorem fetch_setB (s : State) (v : Byte) : fetch (s.setB v) = (fetch s).setB v := rfl

theorem fetch_setOut (s : State) (v : Byte) : fetch (s.setOut v) = (fetch s).setOut v := rfl

theorem step_setB {s t : State} (v : Byte) (hr : s.halted = false) (hs : step s = .next t) :
    step (s.setB v) = .next (if s.opcodeAtPc = 0x2#4 ∨ s.opcodeAtPc = 0x3#4 then t else t.setB v) := by
  obtain ⟨i, hd, he⟩ := exec_of_step_next hr hs
  have hop : s.opcodeAtPc = opcodeOf i := (fields_of_decode_ok hd).1
  rw [step_of_decode_ok (s := s.setB v) hr hd, fetch_setB, hop]
  exact exec_setB v he

theorem step_setOut {s t : State} (v : Byte) (hr : s.halted = false) (hs : step s = .next t) :
    step (s.setOut v) = .next (if s.opcodeAtPc = 0xE#4 then t else t.setOut v) := by
  obtain ⟨i, hd, he⟩ := exec_of_step_next hr hs
  have hop : s.opcodeAtPc = opcodeOf i := (fields_of_decode_ok hd).1
  rw [step_of_decode_ok (s := s.setOut v) hr hd, fetch_setOut, hop]
  exact exec_setOut v he

/-! ### The obligations -/

/-- Settles O32: the fields of `resetOp`, one by one. -/
theorem resetWritesZeros : Obligations.ResetWritesZeros := by
  intro s
  exact ⟨resetOp_a s, resetOp_b s, resetOp_out s, resetOp_ir s, resetOp_pc s, resetOp_mar s, resetOp_halted s,
    resetOp_tState s, resetOp_mem s⟩

/-- Settles O19, from what a completed Step leaves in `A`, in the operand's cell and in `OUT`. -/
theorem accumulatorAfterStep : Obligations.AccumulatorAfterStep := by
  intro s t hr hs
  refine ⟨step_next_a hr hs, fun hsta => ?_, fun hout => ?_⟩
  · rw [step_next_read hr hs, if_pos ⟨hsta, rfl⟩]
  · rw [step_next_out hr hs, if_pos hout]

/-- Settles O20: with another `B` the Step leaves the same state for ADD and SUB (`step_setB`), and otherwise the same
state but for that `B`. -/
theorem bHoldsTheSecondOperand : Obligations.BHoldsTheSecondOperand := by
  intro s t hr hs
  refine ⟨step_next_b hr hs, fun v => ⟨_, step_setB v hr hs, ?_⟩⟩
  by_cases hop : s.opcodeAtPc = 0x2#4 ∨ s.opcodeAtPc = 0x3#4
  · rw [if_pos hop]
    exact ⟨rfl, rfl, rfl, rfl, rfl, rfl, fun _ => rfl, fun _ => rfl⟩
  · rw [if_neg hop]
    exact ⟨rfl, rfl, rfl, rfl, rfl, rfl, fun _ => rfl, fun h => absurd h hop⟩

/-- Settles O21: with another `OUT` the Step leaves the same state for the opcode 0xE (`step_setOut`), and otherwise the
same state but for that `OUT`. -/
theorem outRegisterAfterStep : Obligations.OutRegisterAfterStep := by
  intro s t hr hs
  refine ⟨step_next_out hr hs, fun v => ⟨_, step_setOut v hr hs, ?_⟩⟩
  by_cases hop : s.opcodeAtPc = 0xE#4
  · rw [if_pos hop]
    exact ⟨rfl, rfl, rfl, rfl, rfl, rfl, fun _ => rfl⟩
  · rw [if_neg hop]
    exact ⟨rfl, rfl, rfl, rfl, rfl, rfl, fun _ => rfl⟩

/-- Settles O22: the fetch advances `PC`, and every execute phase carries it along unread (`exec_ir_pc`,
`exec_setPc`). -/
theorem programCounterAfterStep : Obligations.ProgramCounterAfterStep := by
  refine ⟨fun s t hr hs => ?_, fun s t hh hs => ?_, fun i s t p he => ⟨(exec_ir_pc he).2, exec_setPc p he⟩, resetOp_pc,
    loadProgram_pc⟩
  · obtain ⟨i, _, he⟩ := exec_of_step_next hr hs
    obtain ⟨hir, hpc⟩ := exec_ir_pc he
    exact ⟨hir, by rw [hpc, fetch_pc, nextAddr_toNat]⟩
  · rw [step_halted hh] at hs
    cases hs
    rfl

end Sys2Proof.Machine
end

section
/-! PROOFS. The two memory primitives on natural-number addresses (spec/20_memory.md R30). -/
namespace Sys2Proof.Machine

/-- Two addresses name one cell exactly when they agree modulo 16 (R9). -/
theorem mask4_natCast_eq_iff (x y : Nat) : mask4 (x : Int) = mask4 (y : Int) ↔ x % 16 = y % 16 := by
  rw [mask4_natCast, mask4_natCast, ← BitVec.toNat_inj, BitVec.toNat_ofNat, BitVec.toNat_ofNat]

theorem memRead_memWrite (m : Memory) (addr x v : Nat) :
    memRead x (memWrite addr v m) = if x % 16 = addr % 16 then BitVec.ofNat 8 v else memRead x m := by
  unfold memRead memWrite
  rw [Memory.read_write, mask8_natCast]
  simp only [mask4_natCast_eq_iff]

theorem memRead_congr_mod16 (m : Memory) {x y : Nat} (h : x % 16 = y % 16) : memRead x m = memRead y m := by
  unfold memRead
  rw [(mask4_natCast_eq_iff x y).mpr h]

/-- Settles O27: the two cases of `memRead_memWrite`, and that a read depends on its address modulo 16 alone. -/
theorem memoryReadAfterWrite : Obligations.MemoryReadAfterWrite := by
  intro m addr x v
  refine ⟨fun hsame => ?_, fun hother => ?_, ?_⟩
  · rw [memRead_memWrite, if_pos hsame, BitVec.toNat_ofNat]
  · rw [memRead_memWrite, if_neg hother]
  · exact memRead_congr_mod16 m (Nat.add_mod_right x 16)

end Sys2Proof.Machine
end

section
/-! PROOFS. The encoding (spec/30_encoding.md R47 to R53): a byte as its two fields, and that decode and encode are
inverse to each other on the bytes that stand for an instruction. -/
namespace Sys2Proof

/-! ### The two fields and the opcode map -/

/-- Two half bytes side by side, as a number (R47). -/
theorem toNat_fields_append (op operand : Nibble) :
    (op ++ operand : Byte).toNat = op.toNat * 16 + operand.toNat := by
  have hop := opcodeField_toNat (op ++ operand)
  have harg := operandField_toNat (op ++ operand)
  rw [opcodeField_append] at hop
  rw [operandField_append] at harg
  omega

/-- Settles O1: the value of each of the two fields. -/
theorem opcodeAndOperandFields : Obligations.OpcodeAndOperandFields :=
  fun w => ⟨opcodeField_toNat w, operandField_toNat w⟩

/-- Settles O2: `decode_cases` on the byte of the two half bytes, whose fields they are. -/
theorem opcodeMapIsComplete : Obligations.OpcodeMapIsComplete := by
  intro op operand
  refine ⟨toNat_fields_append op operand, ?_⟩
  have hcases := decode_cases (op ++ operand)
  rw [opcodeField_append, operandField_append] at hcases
  rcases hcases with ⟨rfl, h⟩ | ⟨rfl, h⟩ | ⟨rfl, h⟩ | ⟨rfl, h⟩ | ⟨rfl, h⟩ | ⟨rfl, h⟩ | ⟨hillegal, h⟩
  iterate 6 exact h
  simp only [legalOpcode, not_or] at hillegal
  simp [h, hillegal]

/-! ### Decode and encode -/

/-- The encoder's table and the one of well-formedness agree on every instruction. -/
theorem encodedFields (i : Instr) : Laws.EncodedFields.Statement i := by
  cases i with
  | lda addr => exact Laws.EncodedFields.lda addr
  | add addr => exact Laws.EncodedFields.add addr
  | sub addr => exact Laws.EncodedFields.sub addr
  | sta addr => exact Laws.EncodedFields.sta addr
  | out ignored => exact Laws.EncodedFields.out ignored
  | hlt ignored => exact Laws.EncodedFields.hlt ignored

theorem encode_toNat (i : Instr) : (encode i).toNat = i.fields.opcode * 16 + i.fields.operand := by
  obtain ⟨_, hop, harg⟩ := encodedFields i
  rw [← hop, ← harg, ← toNat_fields_append, fields_append]

/-- No bit of an encoding is dropped: each instruction's opcode and operand are a row of the opcode map. -/
@[simp] theorem decode_encode (i : Instr) : decode (encode i) = .ok i := by
  obtain ⟨_, hmap⟩ := opcodeMapIsComplete (opcodeOf i) (operandOf i)
  rw [encode, hmap]
  cases i <;> rfl

theorem encode_of_decode_ok {w : Byte} {i : Instr} (hd : decode w = .ok i) : encode i = w := by
  obtain ⟨hop, harg⟩ := Machine.fields_of_decode_ok hd
  rw [encode, ← hop, ← harg, fields_append]

theorem decode_eq_ok_iff (w : Byte) (i : Instr) : decode w = .ok i ↔ encode i = w :=
  ⟨encode_of_decode_ok, fun h => h ▸ decode_encode i⟩

/-- The illegal bytes are exactly those outside the encoder's range (R53). -/
theorem decode_rejects_iff (w : Byte) : (∃ r, decode w = .error r) ↔ ∀ i : Instr, encode i ≠ w := by
  simp only [ne_eq, ← decode_eq_ok_iff]
  cases decode w <;> simp

/-- Settles O4: the byte's number from its two fields, and the round trip through the opcode map. -/
theorem decodeOfEncodeIsTheInstruction : Obligations.DecodeOfEncodeIsTheInstruction :=
  fun i _ => ⟨encode_toNat i, decode_encode i⟩

/-- Settles O5: the round trip in both directions, and the illegal bytes as the rest. -/
theorem decodeAgreesWithEncodeBothWays : Obligations.DecodeAgreesWithEncodeBothWays :=
  ⟨decode_eq_ok_iff, decode_rejects_iff⟩

end Sys2Proof
end

section
/-! PROOFS. The instruction cycle over many Steps (spec/40_instruction_cycle.md R83): a run split before its last Step,
which Steps leave the core running, and `PC` as the count of the Steps. -/
namespace Sys2Proof.Machine

/-! ### The last Step of a run -/

/-- A run of `k + 1` Steps that completes is one of `k` Steps and one Step more; `runSteps` itself peels the first Step. -/
theorem runSteps_succ_eq_next_iff {k : Nat} {s t : State} :
    runSteps (k + 1) s = .next t ↔ ∃ u, runSteps k s = .next u ∧ step u = .next t := by
  induction k generalizing s with
  | zero => cases hs : step s <;> simp [runSteps, hs]
  | succ k ih =>
    cases hs : step s with
    | next v => rw [runSteps_succ (k + 1) hs, runSteps_succ k hs, ih]
    | fault f => simp [runSteps_fault _ hs]
    | refused r => exact absurd hs (step_ne_refused s r)

/-! ### Which Steps leave the core running -/

/-- A Step never clears the halt latch (R18). -/
theorem running_of_step_running {s t : State} (hs : step s = .next t) (ht : t.halted = false) : s.halted = false := by
  cases h : s.halted with
  | false => rfl
  | true =>
    rw [step_halted h] at hs
    cases hs
    exact h.symm.trans ht

/-- A running core's Step sets the halt latch exactly by HLT (R18). -/
theorem step_next_halted_iff {s t : State} (hr : s.halted = false) (hs : step s = .next t) :
    t.halted = true ↔ s.opcodeAtPc = 0xF#4 := by
  rcases step_next_cases hr hs with ⟨hop, rfl⟩ | ⟨hop, rfl⟩ | ⟨hop, rfl⟩ | ⟨hop, rfl⟩ | ⟨hop, rfl⟩ | ⟨hop, rfl⟩ <;>
    simp [hop, hr]

/-- A legal opcode never faults: its execute phase completes (R79). -/
theorem step_completes_of_legalOpcode {s : State} (hlegal : legalOpcode s.opcodeAtPc) : ∃ t, step s = .next t := by
  rcases step_cases s with ⟨_, hs⟩ | ⟨_, i, _, hs⟩ | ⟨_, hillegal, _⟩
  · exact ⟨s, hs⟩
  · rw [hs]
    exact exec_completes i (fetch s)
  · exact absurd hlegal hillegal

/-- An instruction other than HLT completes and leaves the core running. -/
theorem step_keeps_running {s : State} (hr : s.halted = false) (hlegal : legalOpcode s.opcodeAtPc)
    (hhlt : s.opcodeAtPc ≠ 0xF#4) : ∃ t, step s = .next t ∧ t.halted = false := by
  obtain ⟨t, hs⟩ := step_completes_of_legalOpcode hlegal
  exact ⟨t, hs, Bool.eq_false_iff.mpr (mt (step_next_halted_iff hr hs).mp hhlt)⟩

/-- A running core that meets only instructions other than HLT never stops (R83, R142). -/
theorem runsForever_of_reached_opcodes {s : State} (hr : s.halted = false)
    (hreached : ∀ k t, runSteps k s = .next t → legalOpcode t.opcodeAtPc ∧ t.opcodeAtPc ≠ 0xF#4) : RunsForever s := by
  intro k
  induction k with
  | zero => exact ⟨s, rfl, hr⟩
  | succ k ih =>
    obtain ⟨u, hrun, hu⟩ := ih
    obtain ⟨hlegal, hhlt⟩ := hreached k u hrun
    obtain ⟨t, hs, ht⟩ := step_keeps_running hu hlegal hhlt
    exact ⟨t, runSteps_succ_eq_next_iff.mpr ⟨u, hrun, hs⟩, ht⟩

/-! ### `PC` counts the Steps -/

/-- The last state's latch is enough: no state before it can have been halted. -/
theorem runSteps_pc {k : Nat} {s t : State} (hrun : runSteps k s = .next t) (ht : t.halted = false) :
    t.pc.toNat = (s.pc.toNat + k) % 16 := by
  induction k generalizing t with
  | zero =>
    cases hrun
    exact (Nat.mod_eq_of_lt s.pc.isLt).symm
  | succ k ih =>
    obtain ⟨u, hrun', hs⟩ := runSteps_succ_eq_next_iff.mp hrun
    have hu : u.halted = false := running_of_step_running hs ht
    obtain ⟨_, hpc⟩ := programCounterAfterStep.1 u t hu hs
    rw [hpc, ih hrun' hu, Nat.mod_add_mod, Nat.add_assoc]

/-! ### The obligation -/

/-- Settles O45: `runSteps_pc`, its case of sixteen Steps, and `runsForever_of_reached_opcodes`. -/
theorem programCounterWrapsModulo16 : Obligations.ProgramCounterWrapsModulo16 := by
  refine ⟨fun k s t => runSteps_pc, fun s t hrun ht => ?_, fun s hr hops => ?_⟩
  · apply BitVec.eq_of_toNat_eq
    rw [runSteps_pc hrun ht, Nat.add_mod_right, Nat.mod_eq_of_lt s.pc.isLt]
  · refine runsForever_of_reached_opcodes hr fun k t hrun => ?_
    rcases hops k t hrun with hop | hop | hop | hop | hop <;> simp [hop, legalOpcode]

end Sys2Proof.Machine
end

section
/-! PROOFS. The load and the store (spec/41_load_store.md R87, R88): the byte of each, and the state its execute phase
leaves. -/
namespace Sys2Proof.Machine

/-! ### The two halves of R30 -/

@[simp] theorem Memory.read_write_same (m : Memory) (addr : Addr) (v : Byte) :
    Memory.read (Memory.write m addr v) addr = v := by
  rw [Memory.read_write, if_pos rfl]

theorem Memory.read_write_of_ne (m : Memory) {addr x : Addr} (v : Byte) (hx : x ≠ addr) :
    Memory.read (Memory.write m addr v) x = Memory.read m x := by
  rw [Memory.read_write, if_neg hx]

/-! ### The obligations -/

/-- Settles O7: the byte is the encoder's, and `exec_lda` gives the whole next state, in which only `MAR` and `A` are
written. -/
theorem ldaLoadsTheCell : Obligations.LdaLoadsTheCell := by
  intro addr s
  refine ⟨encode_toNat (.lda addr), decode_encode (.lda addr), _, exec_lda addr s, ?_⟩
  simp [SameCells]

/-- Settles O8: the byte is the encoder's, and `exec_sta` gives the whole next state, in which only `MAR` and memory are
written; the two halves of R30 say which cell of memory. -/
theorem staStoresTheAccumulator : Obligations.StaStoresTheAccumulator := by
  intro addr s
  have haddr : effectiveAddress addr = addr := rfl
  refine ⟨encode_toNat (.sta addr), decode_encode (.sta addr), _, exec_sta addr s, ?_⟩
  rw [haddr]
  have hothers : ∀ x, x ≠ addr → Memory.read (Memory.write s.mem addr s.a) x = Memory.read s.mem x :=
    fun _ => Memory.read_write_of_ne s.mem s.a
  simpa using hothers

end Sys2Proof.Machine
end

section
/-! PROOFS. The arithmetic (spec/42_arithmetic.md R89 to R91): the sum and the difference on unbounded integers, and the
state the execute phases of ADD and SUB leave. -/
namespace Sys2Proof.Machine

/-! ### The arithmetic unit on unbounded integers -/

theorem mask8_toNat (v : Int) : ((mask8 v).toNat : Int) = v % 256 := by
  have hnonneg : 0 ≤ v % 256 := Int.emod_nonneg v (by decide)
  simpa [mask8, BitVec.toNat_ofInt] using hnonneg

theorem aluAdd_toNat (a b : Byte) : (aluAdd a b).toNat = (a.toNat + b.toNat) % 256 :=
  Int.ofNat_inj.mp (mask8_toNat (a.toNat + b.toNat))

theorem aluSub_toNat (a b : Byte) : ((aluSub a b).toNat : Int) = ((a.toNat : Int) - b.toNat) % 256 :=
  mask8_toNat (a.toNat - b.toNat)

/-! ### The obligations -/

/-- Settles O14: the sum, the difference and the next address, each by its own lemma. -/
theorem arithmeticIsModular : Obligations.ArithmeticIsModular :=
  fun a b pc => ⟨aluAdd_toNat a b, aluSub_toNat a b, nextAddr_toNat pc⟩

/-- Settles O9: the byte is the encoder's, and `exec_add` gives the whole next state, in which only `MAR`, `B` and `A`
are written; `A` is the arithmetic unit's sum. -/
theorem addAddsTheCell : Obligations.AddAddsTheCell := by
  intro addr s
  refine ⟨encode_toNat (.add addr), decode_encode (.add addr), _, exec_add addr s, by simp, by simp, ?_,
    by simp [SameCells]⟩
  rw [State.setA_a, ← aluAdd_eq]
  exact aluAdd_toNat s.a (Memory.read s.mem addr)

/-- Settles O10: as for ADD, with `exec_sub` and the arithmetic unit's difference, `A` minus the cell. -/
theorem subSubtractsTheCell : Obligations.SubSubtractsTheCell := by
  intro addr s
  refine ⟨encode_toNat (.sub addr), decode_encode (.sub addr), _, exec_sub addr s, by simp, by simp, ?_,
    by simp [SameCells]⟩
  rw [State.setA_a, ← aluSub_eq]
  exact aluSub_toNat s.a (Memory.read s.mem addr)

end Sys2Proof.Machine
end

section
/-! PROOFS. The output instruction (spec/43_output_halt.md R94): the byte of OUT and the state its execute phase
leaves. -/
namespace Sys2Proof.Machine

/-- Settles O11: the byte is the encoder's, and `exec_out` gives the whole next state, in which only `OUT` is written. -/
theorem outCopiesTheAccumulator : Obligations.OutCopiesTheAccumulator := by
  intro ignored s
  refine ⟨encode_toNat (.out ignored), decode_encode (.out ignored), rfl, _, exec_out ignored s, ?_⟩
  simp [SameCells]

end Sys2Proof.Machine
end

section
/-! PROOFS. The host's operations (spec/50_host_interface.md R98 to R107): the cells LoadProgram leaves and its frame, and
Step and Run under another setting of the trace flags. -/
namespace Sys2Proof.Machine

/-! ### LoadProgram -/

theorem memRead_toNat (m : Memory) (x : Addr) : memRead x.toNat m = Memory.read m x := by
  rw [memRead, mask4_natCast, BitVec.ofNat_toNat, BitVec.setWidth_eq]

theorem Memory.read_memWrite (m : Memory) (addr v : Nat) (x : Addr) :
    Memory.read (memWrite addr v m) x = if addr % 16 = x.toNat then BitVec.ofNat 8 v else Memory.read m x := by
  have hx : x.toNat % 16 = x.toNat := Nat.mod_eq_of_lt x.isLt
  rw [← memRead_toNat, ← memRead_toNat, memRead_memWrite, hx]
  simp only [eq_comm]

/-- The frame of LoadProgram: it writes memory and nothing else (R98). -/
theorem loadProgram_eq_setMem (pairs : List (Nat × Nat)) (s : State) :
    loadProgram pairs s = s.setMem (loadProgram pairs s).mem := by
  induction pairs generalizing s with
  | nil => rfl
  | cons p rest ih =>
    rw [loadProgram_cons]
    exact ih _

/-- LoadProgram seen from its last pair, the one that wins; its definition peels the first. -/
theorem loadProgram_concat (pairs : List (Nat × Nat)) (p : Nat × Nat) (s : State) :
    loadProgram (pairs ++ [p]) s = (loadProgram pairs s).setMem (memWrite p.1 p.2 (loadProgram pairs s).mem) := by
  induction pairs generalizing s with
  | nil => rfl
  | cons q rest ih => exact ih _

/-- What one cell holds after LoadProgram: the last pair that names it decides. -/
theorem read_loadProgram (pairs : List (Nat × Nat)) (s : State) (x : Addr) :
    Memory.read (loadProgram pairs s).mem x =
      ((pairs.reverse.find? fun p => decide (p.1 % 16 = x.toNat)).map fun p => BitVec.ofNat 8 p.2).getD
        (Memory.read s.mem x) := by
  induction pairs using List.reverseRecOn with
  | nil => rfl
  | append_singleton pairs p ih =>
    rw [loadProgram_concat, State.setMem_mem, Memory.read_memWrite, List.reverse_concat]
    by_cases hp : p.1 % 16 = x.toNat
    · simp [hp]
    · simp [hp, ih]

/-- Settles O34: each cell by `read_loadProgram`, the rest of the state by `loadProgram_eq_setMem`. -/
theorem loadProgramWritesTheCells : Obligations.LoadProgramWritesTheCells := by
  intro pairs s
  refine ⟨fun x => ?_, ?_⟩
  · rw [read_loadProgram]
    cases pairs.reverse.find? fun p => decide (p.1 % 16 = x.toNat) with
    | none => rfl
    | some p => exact BitVec.eq_of_toNat_eq (by simp)
  · rw [loadProgram_eq_setMem]
    exact ⟨rfl, rfl, rfl, rfl, rfl, rfl, rfl, rfl⟩

/-! ### Step and Run -/

/-- The three outcomes a Step has for the host: NoInstruction, Executed and DecodeError (R100). -/
theorem step_outcomes (s : State) :
    s.halted = true ∨ (s.halted = false ∧ ∃ t, step s = .next t) ∨
    (s.halted = false ∧ ∃ op ir left, step s = .fault (.decodeError op ir left)) := by
  rcases step_cases s with ⟨hh, _⟩ | ⟨hr, i, _, he⟩ | ⟨hr, _, hf⟩
  · exact .inl hh
  · exact .inr (.inl ⟨hr, he ▸ exec_completes i (fetch s)⟩)
  · exact .inr (.inr ⟨hr, _, _, _, hf⟩)

theorem hostStep_halted (cfg : HostConfig) {s : State} (h : s.halted = true) :
    hostStep cfg s = (s, .noInstruction) := by
  simp [hostStep, h]

theorem hostRun_halted (cfg : HostConfig) (n : Nat) {s : State} (h : s.halted = true) :
    hostRun cfg n s = ⟨s, [], .done⟩ := by
  cases n with
  | zero => rfl
  | succ n => simp [hostRun, h]

theorem hostRun_fault (cfg : HostConfig) (n : Nat) {s left : State} {op : Nibble} {ir : Byte} (h : s.halted = false)
    (hs : step s = .fault (.decodeError op ir left)) :
    hostRun cfg (n + 1) s = ⟨left, [.fault op ir], .fault op ir⟩ := by
  simp [hostRun, h, hostStep_fault cfg hs, faultReport]

/-! ### The trace flags -/

theorem hostStep_state_indep (cfg cfg' : HostConfig) (s : State) : (hostStep cfg s).1 = (hostStep cfg' s).1 := by
  rcases step_outcomes s with hh | ⟨hr, t, hs⟩ | ⟨_, op, ir, left, hs⟩
  · rw [hostStep_halted cfg hh, hostStep_halted cfg' hh]
  · rw [hostStep_next cfg hr hs, hostStep_next cfg' hr hs]
  · rw [hostStep_fault cfg hs, hostStep_fault cfg' hs]

/-- Only the reports of a Run depend on the configuration: two Runs from one state leave the same state and end in the
same way. -/
theorem hostRun_state_ending_indep (cfg cfg' : HostConfig) (n : Nat) (s : State) :
    (hostRun cfg n s).state = (hostRun cfg' n s).state ∧ (hostRun cfg n s).ending = (hostRun cfg' n s).ending := by
  induction n generalizing s with
  | zero => exact ⟨rfl, rfl⟩
  | succ n ih =>
    rcases step_outcomes s with hh | ⟨hr, t, hs⟩ | ⟨hr, op, ir, left, hs⟩
    · rw [hostRun_halted cfg _ hh, hostRun_halted cfg' _ hh]
      exact ⟨rfl, rfl⟩
    · rw [hostRun_next cfg n hr hs, hostRun_next cfg' n hr hs]
      exact ih t
    · rw [hostRun_fault cfg n hr hs, hostRun_fault cfg' n hr hs]
      exact ⟨rfl, rfl⟩

/-- Settles O39: the state of a Step, the state and ending of a Run, and the report of an executed Step, which is
`executedReport`. -/
theorem traceFlagsDoNotAffectState : Obligations.TraceFlagsDoNotAffectState := by
  intro cfg cfg' n s
  obtain ⟨hstate, hending⟩ := hostRun_state_ending_indep cfg cfg' n s
  exact ⟨hostStep_state_indep cfg cfg' s, hstate, hending, fun t hr hs => hostStep_next cfg hr hs⟩

end Sys2Proof.Machine
end

section
/-! PROOFS. DecodeError (spec/60_exceptions.md R112): which opcodes are illegal, and exactly when and with what a Step
faults. -/
namespace Sys2Proof.Machine

/-! ### The illegal opcodes -/

/-- The illegal opcodes as numbers (R51). -/
theorem not_legalOpcode_iff (op : Nibble) :
    ¬ legalOpcode op ↔ op.toNat = 0 ∨ (5 ≤ op.toNat ∧ op.toNat ≤ 13) := by
  have hlt : op.toNat < 16 := op.isLt
  simp only [legalOpcode, ← BitVec.toNat_inj, BitVec.toNat_ofNat]
  omega

theorem legalOpcode_of_decode_ok {w : Byte} {i : Instr} (hd : decode w = .ok i) : legalOpcode (opcodeField w) := by
  rw [(fields_of_decode_ok hd).1, legalOpcode]
  cases i <;> simp [opcodeOf]

/-! ### The fault of a Step -/

/-- A Step faults exactly when a running core meets an illegal opcode, and then with one fault only. -/
theorem step_eq_fault_iff {s : State} {f : Fault} :
    step s = .fault f ↔
      s.halted = false ∧ ¬ legalOpcode s.opcodeAtPc ∧ f = .decodeError s.opcodeAtPc s.byteAtPc (fetch s) := by
  rcases step_cases s with ⟨hh, hs⟩ | ⟨_, i, hd, hs⟩ | ⟨hr, hillegal, hs⟩
  · simp [hs, hh]
  · have hlegal : legalOpcode s.opcodeAtPc := legalOpcode_of_decode_ok hd
    obtain ⟨t, ht⟩ := exec_completes i (fetch s)
    simp [hs, ht, hlegal]
  · rw [← State.opcodeAtPc] at hillegal hs
    simp [hs, hr, hillegal, eq_comm]

/-! ### The obligation -/

/-- Settles O29: `step_eq_fault_iff` says when a Step faults and with what, `not_legalOpcode_iff` puts the opcodes as
numbers, and `step_ne_refused` excludes the third outcome. -/
theorem decodeErrorIsTheOnlyFault : Obligations.DecodeErrorIsTheOnlyFault := by
  intro s
  refine ⟨?_, fun op ir left hs => ?_, step_ne_refused s⟩
  · simp only [step_eq_fault_iff, exists_and_left, exists_eq, and_true, not_legalOpcode_iff]
  · obtain ⟨_, _, hf⟩ := step_eq_fault_iff.mp hs
    cases hf
    exact ⟨rfl, rfl⟩

end Sys2Proof.Machine
end

section
/-! PROOFS. The whole state around one Step (spec/40_instruction_cycle.md R75 to R84, spec/20_memory.md R44,
spec/60_exceptions.md R114): the frame of each execute phase, what a completed Step leaves in `IR`, `PC`, `MAR` and the
halt latch, and what a faulting Step leaves. -/
namespace Sys2Proof.Machine

/-! ### The fetch and the execute phase -/

/-- Settles O16: the fields of the fetched state one by one, and the Step on a byte that decodes and on one that does
not. -/
theorem stepRunsTheDecodedInstruction : Obligations.StepRunsTheDecodedInstruction := by
  intro s
  refine ⟨⟨fetch_mar s, fetch_ir s, nextAddr_toNat s.pc, fetch_a s, fetch_b s, fetch_out s, fetch_halted s,
    fun _ => rfl⟩, fun hr => ⟨fun i hd => ?_, fun op w hd => ?_⟩⟩
  · exact step_of_decode_ok hr hd
  · exact step_of_decode_error hr hd

/-- Settles O13: each execute phase is one equation for the whole next state, so what it does not write is there by
computation; STA's other cells are those of `Memory.read_write_of_ne`. -/
theorem executePhaseFrame : Obligations.ExecutePhaseFrame := by
  intro i s t he
  obtain ⟨hir, hpc⟩ := exec_ir_pc he
  refine ⟨hir, hpc, ?_⟩
  cases i with
  | lda addr => cases he; exact ⟨rfl, rfl, rfl, fun _ => rfl⟩
  | add addr => cases he; exact ⟨rfl, rfl, fun _ => rfl⟩
  | sub addr => cases he; exact ⟨rfl, rfl, fun _ => rfl⟩
  | sta addr => cases he; exact ⟨rfl, rfl, rfl, rfl, fun _ => Memory.read_write_of_ne s.mem s.a⟩
  | out ignored => cases he; exact ⟨rfl, rfl, rfl, rfl, fun _ => rfl⟩
  | hlt ignored => cases he; exact ⟨rfl, rfl, rfl, rfl, fun _ => rfl⟩

/-- The cell `PC` names holds the placed byte, every other cell what it held. -/
theorem State.read_withFetchWord (s : State) (nbits w : Nat) (x : Addr) :
    Memory.read (s.withFetchWord nbits w).mem x =
      if x = s.pc then mask8 ((w % 2 ^ nbits : Nat) : Int) else Memory.read s.mem x := by
  rw [State.withFetchWord, State.setHalted_mem, State.setMem_mem, Memory.read_memWrite, mask8_natCast,
    Nat.mod_eq_of_lt s.pc.isLt]
  simp only [BitVec.toNat_inj, eq_comm]

/-- Settles O17: the byte `PC` names is then the placed one, and the core runs. -/
theorem placedWordIsWhatRuns : Obligations.PlacedWordIsWhatRuns := by
  intro s w i hw
  have hd : decode (s.withFetchWord 8 w).byteAtPc = .ok i := by
    have hbyte : (s.withFetchWord 8 w).byteAtPc = mask8 ((w % 2 ^ 8 : Nat) : Int) :=
      (s.read_withFetchWord 8 w s.pc).trans (if_pos rfl)
    rw [hbyte]
    unfold decodeTableWord at hw
    split at hw
    · next j hj => cases hw; exact hj
    · cases hw
  exact ⟨step_of_decode_ok rfl hd, rfl, fun x hx => (s.read_withFetchWord 8 w x).trans (if_neg hx)⟩

/-! ### What a completed Step leaves -/

section
variable {s t : State} (hr : s.halted = false) (hs : step s = .next t)
include hr hs

theorem legalOpcode_of_step_next : legalOpcode s.opcodeAtPc := by
  obtain ⟨i, hd, _⟩ := exec_of_step_next hr hs
  exact legalOpcode_of_decode_ok hd

theorem step_next_ir : t.ir = s.byteAtPc := by
  obtain ⟨i, _, he⟩ := exec_of_step_next hr hs
  exact (exec_ir_pc he).1

theorem step_next_pc : t.pc = s.pc + 1 := by
  obtain ⟨i, _, he⟩ := exec_of_step_next hr hs
  exact (exec_ir_pc he).2.trans (nextAddr_eq s.pc)

/-- The four memory references select their operand's cell, OUT and HLT leave the fetch address (R84). -/
theorem step_next_mar :
    t.mar = (if s.opcodeAtPc = 0x1#4 ∨ s.opcodeAtPc = 0x2#4 ∨ s.opcodeAtPc = 0x3#4 ∨ s.opcodeAtPc = 0x4#4
      then s.operandAtPc else s.pc) := by
  rcases step_next_cases hr hs with ⟨hop, rfl⟩ | ⟨hop, rfl⟩ | ⟨hop, rfl⟩ | ⟨hop, rfl⟩ | ⟨hop, rfl⟩ | ⟨hop, rfl⟩ <;>
    simp [hop]

/-- Only LDA, ADD and SUB change `A`; the log of outputs takes the `A` an OUT found (R106). -/
theorem step_next_a_of_out (hout : s.opcodeAtPc = 0xE#4) : t.a = s.a := by
  rw [step_next_a hr hs, hout]
  rfl

/-- Without a STA byte at `PC` a Step changes no cell (R31). -/
theorem step_next_sameCells (hsta : s.opcodeAtPc ≠ 0x4#4) : SameCells s t := by
  intro x
  rw [step_next_read hr hs, if_neg fun h => hsta h.1]

end

/-- Settles O23: `step_next_mar`, where OUT and HLT take the second value, and `step_next_pc`. -/
theorem addressRegisterAfterStep : Obligations.AddressRegisterAfterStep := by
  intro s t hr hs
  refine ⟨step_next_mar hr hs, fun hop => ?_⟩
  have hpc : t.pc - 1 = s.pc := by rw [step_next_pc hr hs, BitVec.add_sub_cancel]
  rw [hpc, step_next_mar hr hs]
  rcases hop with hop | hop <;> simp [hop]

/-- Settles O25: it is `step_next_read`. -/
theorem memoryAfterStep : Obligations.MemoryAfterStep :=
  fun _ _ hr hs => step_next_read hr hs

/-- Settles O24: a halted core keeps its latch, a running one sets it exactly by HLT (`step_next_halted_iff`), and a
fault is raised by a running core only. -/
theorem haltLatchAfterStep : Obligations.HaltLatchAfterStep := by
  refine ⟨fun s t hs => ?_, fun s f hf => ?_, fun s => step_halted, resetOp_halted, fun pairs s => ?_⟩
  · cases hh : s.halted with
    | true =>
      rw [step_halted hh] at hs
      cases hs
      simp [hh]
    | false => simpa using step_next_halted_iff hh hs
  · obtain ⟨hr, _, rfl⟩ := step_eq_fault_iff.mp hf
    exact hr
  · rw [loadProgram_eq_setMem, State.setMem_halted]

/-- Settles O26: STA completes and leaves the core running; by `step_next_read` the cell it names then holds `A`, which
is the cell the next fetch reads in the first case and the one just executed in the second. -/
theorem storeIsSeenByTheNextFetch : Obligations.StoreIsSeenByTheNextFetch := by
  intro s hr
  have hstore : ∀ addr : Addr, s.byteAtPc = 0x4#4 ++ addr →
      ∃ t, step s = .next t ∧ t.halted = false ∧ Memory.read t.mem addr = s.a := by
    intro addr hbyte
    have hop : s.opcodeAtPc = 0x4#4 := by rw [State.opcodeAtPc, hbyte, opcodeField_append]
    have harg : s.operandAtPc = addr := by rw [State.operandAtPc, hbyte, operandField_append]
    obtain ⟨t, hs, ht⟩ := step_keeps_running hr (by simp [hop, legalOpcode]) (by simp [hop])
    exact ⟨t, hs, ht, by rw [step_next_read hr hs, if_pos ⟨hop, harg.symm⟩]⟩
  refine ⟨fun hbyte => ?_, fun hbyte => ?_⟩
  · obtain ⟨t, hs, ht, hcell⟩ := hstore _ hbyte
    have hnext : t.byteAtPc = s.a := by rw [State.byteAtPc, step_next_pc hr hs, hcell]
    exact ⟨t, hs, hnext, fun i hd => step_of_decode_ok ht (hnext ▸ hd)⟩
  · obtain ⟨t, hs, ht, hcell⟩ := hstore _ hbyte
    exact ⟨t, hs, step_next_ir hr hs, hcell, ht⟩

/-! ### What a faulting Step leaves -/

/-- Settles O30: by `step_eq_fault_iff` the state left is the fetched one, still running, and so the host's next Step
fetches from its `PC`. -/
theorem stateLeftByDecodeError : Obligations.StateLeftByDecodeError := by
  intro s op ir left hf
  obtain ⟨hr, _, hfault⟩ := step_eq_fault_iff.mp hf
  have hhost : ∀ cfg : HostConfig, hostStep cfg s = (left, .fault op ir) := fun cfg => hostStep_fault cfg hf
  cases hfault
  exact ⟨fetch_mar s, fetch_ir s, nextAddr_toNat s.pc, fetch_a s, fetch_b s, fetch_out s, hr, fun _ => rfl, hhost,
    fun i hd => step_of_decode_ok hr hd⟩

end Sys2Proof.Machine
end

section
/-! PROOFS. The canonical form of memory and the invariant of the reachable states (spec/20_memory.md section 1,
spec/10_state.md R18, spec/50_host_interface.md R96 to R101): a canonical memory is its cells, and every Step and every
operation of the host keeps the invariant. -/
namespace Sys2Proof.Machine

/-! ### The canonical form -/

/-- What canonical form says of a listing that is not empty: its first entry is in range and no unlisted byte, and the
rest is canonical above it. -/
theorem Memory.wfFrom_cons_iff {lo k : Nat} {v : Byte} {rest : Memory} :
    Memory.wfFrom lo ((k, v) :: rest) = true ↔
      lo ≤ k ∧ k < 16 ∧ v ≠ unlistedByte ∧ Memory.wfFrom (k + 1) rest = true := by
  simp only [Memory.wfFrom, Bool.and_eq_true, decide_eq_true_eq, and_assoc]

theorem Memory.lookup_cons_same (k : Nat) (v : Byte) (rest : Memory) : Memory.lookup ((k, v) :: rest) k = v :=
  if_pos rfl

theorem Memory.lookup_cons_of_ne {k n : Nat} (v : Byte) (rest : Memory) (h : k ≠ n) :
    Memory.lookup ((k, v) :: rest) n = Memory.lookup rest n :=
  if_neg h

theorem Memory.wfFrom_first_address {lo k : Nat} {v : Byte} {rest : Memory}
    (hm : Memory.wfFrom lo ((k, v) :: rest) = true) : Memory.wfFrom k ((k, v) :: rest) = true := by
  rw [Memory.wfFrom_cons_iff] at hm ⊢
  exact ⟨le_rfl, hm.2⟩

/-- An address listed first in one canonical memory is not below the range of another that reads alike: there it would
read as the unlisted byte. -/
theorem Memory.le_first_address {lo lo' k : Nat} {v : Byte} {rest m : Memory}
    (hm : Memory.wfFrom lo ((k, v) :: rest) = true) (hm' : Memory.wfFrom lo' m = true)
    (hread : ∀ n, n < 16 → Memory.lookup ((k, v) :: rest) n = Memory.lookup m n) : lo' ≤ k := by
  obtain ⟨_, hk, hv, _⟩ := Memory.wfFrom_cons_iff.mp hm
  by_contra hlt
  have hunlisted : v = unlistedByte := by
    rw [← Memory.lookup_cons_same k v rest, hread k hk, Memory.lookup_below hm' (Nat.lt_of_not_le hlt)]
  exact hv hunlisted

/-- A listing that is not empty reads other than 0 at its first address. -/
theorem Memory.cons_reads_unlike_nil {lo k : Nat} {v : Byte} {rest : Memory}
    (hm : Memory.wfFrom lo ((k, v) :: rest) = true) :
    ¬ ∀ n, n < 16 → Memory.lookup ((k, v) :: rest) n = Memory.lookup [] n := by
  intro hread
  have hle : 16 ≤ k := Memory.le_first_address hm (lo' := 16) rfl hread
  have hlt : k < 16 := (Memory.wfFrom_cons_iff.mp hm).2.1
  omega

/-- Canonical listings that read alike are equal, entry by entry: neither's first address can be below the other's, and
below its range the rest of each reads as unlisted. -/
theorem Memory.eq_of_lookup_eq {lo : Nat} {m m' : Memory} (hm : Memory.wfFrom lo m = true)
    (hm' : Memory.wfFrom lo m' = true) (hread : ∀ n, n < 16 → Memory.lookup m n = Memory.lookup m' n) : m = m' := by
  induction m generalizing lo m' with
  | nil =>
    cases m' with
    | nil => rfl
    | cons c' rest' => exact absurd (fun n hn => (hread n hn).symm) (Memory.cons_reads_unlike_nil hm')
  | cons c rest ih =>
    cases m' with
    | nil => exact absurd hread (Memory.cons_reads_unlike_nil hm)
    | cons c' rest' =>
      obtain ⟨k, v⟩ := c
      obtain ⟨k', v'⟩ := c'
      obtain rfl : k = k' := Nat.le_antisymm
        (Memory.le_first_address hm' (Memory.wfFrom_first_address hm) fun n hn => (hread n hn).symm)
        (Memory.le_first_address hm (Memory.wfFrom_first_address hm') hread)
      obtain ⟨_, hk, _, hrest⟩ := Memory.wfFrom_cons_iff.mp hm
      obtain ⟨_, _, _, hrest'⟩ := Memory.wfFrom_cons_iff.mp hm'
      have hv : v = v' := by simpa only [Memory.lookup_cons_same] using hread k hk
      have hrests : rest = rest' := ih hrest hrest' fun n hn => by
        by_cases hkn : k = n
        · rw [Memory.lookup_below hrest (by omega), Memory.lookup_below hrest' (by omega)]
        · simpa only [Memory.lookup_cons_of_ne _ _ hkn] using hread n hn
      rw [hv, hrests]

/-- Settles O28: `Memory.eq_of_lookup_eq`, a number below 16 being an address. -/
theorem canonicalMemoryIsItsCells : Obligations.CanonicalMemoryIsItsCells := by
  intro m m' hm hm' hread
  refine Memory.eq_of_lookup_eq hm hm' fun n hn => ?_
  have hcell := hread (BitVec.ofNat 4 n)
  rwa [Memory.read, Memory.read, BitVec.toNat_ofNat, Nat.mod_eq_of_lt hn] at hcell

/-! ### The invariant along one Step -/

/-- A running core has the invariant as soon as its memory is canonical. -/
theorem State.inv_of_running {s : State} (hwf : Memory.wf s.mem = true) (hr : s.halted = false) : s.Inv :=
  ⟨hwf, fun hh => by rw [hr] at hh; cases hh⟩

/-- The latch is set by HLT alone, whose byte the same Step fetched from the address it left in `MAR`. -/
theorem step_next_keeps_inv {s t : State} (hinv : s.Inv) (hs : step s = .next t) : t.Inv := by
  cases hh : s.halted with
  | true =>
    rw [step_halted hh] at hs
    cases hs
    exact hinv
  | false =>
    obtain ⟨i, _, he⟩ := exec_of_step_next hh hs
    refine ⟨wf_exec (s := fetch s) hinv.1 he, fun ht => ?_⟩
    have hop : s.opcodeAtPc = 0xF#4 := (step_next_halted_iff hh hs).mp ht
    have hmar : t.mar = s.pc := by rw [step_next_mar hh hs]; simp [hop]
    exact ⟨by rw [step_next_ir hh hs]; exact hop, by rw [hmar, step_next_pc hh hs]⟩

/-- The state a fault leaves is the fetched one: the same memory, still running. -/
theorem step_fault_keeps_inv {s : State} {f : Fault} (hinv : s.Inv) (hs : step s = .fault f) : (afterFault f).Inv := by
  obtain ⟨hr, _, rfl⟩ := step_eq_fault_iff.mp hs
  exact State.inv_of_running (s := fetch s) hinv.1 hr

/-- Settles O43: the two outcomes a Step has. -/
theorem stepKeepsTheInvariant : Obligations.StepKeepsTheInvariant :=
  fun _ hinv => ⟨fun _ => step_next_keeps_inv hinv, fun _ => step_fault_keeps_inv hinv⟩

/-! ### The invariant along the host's operations -/

theorem reset_inv : State.reset.Inv :=
  State.inv_of_running rfl rfl

theorem resetOp_keeps_inv {s : State} (hinv : s.Inv) : (resetOp s).Inv :=
  State.inv_of_running (s := resetOp s) hinv.1 rfl

/-- Settles O42: both states are running, and Reset keeps memory. -/
theorem invariantAtReset : Obligations.InvariantAtReset :=
  ⟨reset_inv, fun _ => resetOp_keeps_inv⟩

theorem loadProgram_keeps_inv (pairs : List (Nat × Nat)) {s : State} (hinv : s.Inv) : (loadProgram pairs s).Inv := by
  have hwf := wf_loadProgram pairs hinv.1
  rw [loadProgram_eq_setMem]
  exact ⟨hwf, hinv.2⟩

theorem hostStep_keeps_inv (cfg : HostConfig) {s : State} (hinv : s.Inv) : (hostStep cfg s).1.Inv := by
  rcases step_outcomes s with hh | ⟨hr, t, hs⟩ | ⟨_, op, ir, left, hs⟩
  · rw [hostStep_halted cfg hh]
    exact hinv
  · rw [hostStep_next cfg hr hs]
    exact step_next_keeps_inv hinv hs
  · rw [hostStep_fault cfg hs]
    exact step_fault_keeps_inv hinv hs

theorem hostRun_keeps_inv (cfg : HostConfig) (n : Nat) {s : State} (hinv : s.Inv) : (hostRun cfg n s).state.Inv := by
  induction n generalizing s with
  | zero => exact hinv
  | succ n ih =>
    rcases step_outcomes s with hh | ⟨hr, t, hs⟩ | ⟨hr, op, ir, left, hs⟩
    · rw [hostRun_halted cfg _ hh]
      exact hinv
    · rw [hostRun_next cfg n hr hs]
      exact ih (step_next_keeps_inv hinv hs)
    · rw [hostRun_fault cfg n hr hs]
      exact step_fault_keeps_inv hinv hs

/-! ### Sessions of operations -/

/-- The session's record does not touch the machine: a host's Step leaves the state `hostStep` leaves. -/
theorem applyOp_step_state (cfg : HostConfig) (m : Session) :
    (applyOp cfg .step m).state = (hostStep cfg m.state).1 := by
  rcases step_outcomes m.state with hh | ⟨hr, t, hs⟩ | ⟨_, op, ir, left, hs⟩
  · simp [applyOp, hostStep_halted cfg hh]
  · simp [applyOp, hostStep_next cfg hr hs, executedReport]
  · simp [applyOp, hostStep_fault cfg hs, faultReport]

theorem applyOp_run_state (cfg : HostConfig) (maxSteps : Option Nat) (m : Session) :
    (applyOp cfg (.run maxSteps) m).state = (hostRunBounded cfg maxSteps m.state).state := by
  cases hend : (hostRunBounded cfg maxSteps m.state).ending <;> simp [applyOp, hend]

theorem applyOp_keeps_inv (cfg : HostConfig) (op : HostOp) {m : Session} (hinv : m.state.Inv) :
    (applyOp cfg op m).state.Inv := by
  cases op with
  | reset => exact resetOp_keeps_inv hinv
  | loadProgram pairs => exact loadProgram_keeps_inv pairs hinv
  | step =>
    rw [applyOp_step_state]
    exact hostStep_keeps_inv cfg hinv
  | run maxSteps =>
    rw [applyOp_run_state]
    exact hostRun_keeps_inv cfg _ hinv

theorem applyOps_keeps_inv (cfg : HostConfig) (ops : List HostOp) {m : Session} (hinv : m.state.Inv) :
    (applyOps cfg ops m).state.Inv := by
  induction ops generalizing m with
  | nil => exact hinv
  | cons op rest ih => exact ih (applyOp_keeps_inv cfg op hinv)

/-- Settles O44: each operation keeps the invariant (`applyOp_keeps_inv`), and power-on has it. -/
theorem hostOperationsKeepTheInvariant : Obligations.HostOperationsKeepTheInvariant :=
  fun cfg ops => ⟨fun _ => applyOps_keeps_inv cfg ops, applyOps_keeps_inv cfg ops reset_inv⟩

end Sys2Proof.Machine
end

section
/-! PROOFS. Whole runs (spec/70_reset_and_hazards.md R142, R147, R150; spec/50_host_interface.md R106): a run cut in two,
the three ways it can end, the outputs on its way, and what it depends on. -/
namespace Sys2Proof.Machine

/-! ### A run cut in two -/

theorem runSteps_halted (k : Nat) {s : State} (h : s.halted = true) : runSteps k s = .next s := by
  induction k with
  | zero => rfl
  | succ k ih => rw [runSteps_succ k (step_halted h), ih]

theorem runSteps_add {j : Nat} {s u : State} (hrun : runSteps j s = .next u) (k : Nat) :
    runSteps (j + k) s = runSteps k u := by
  induction j generalizing s with
  | zero =>
    cases hrun
    rw [Nat.zero_add]
  | succ j ih =>
    cases hs : step s with
    | next v =>
      rw [runSteps_succ j hs] at hrun
      rw [Nat.add_right_comm, runSteps_succ (j + k) hs, ih hrun]
    | fault f =>
      rw [runSteps_fault j hs] at hrun
      cases hrun
    | refused r => exact absurd hs (step_ne_refused s r)

/-- Settles O18: a halted core's Step, and so a run and a Run, leave it as it is. -/
theorem haltedCoreNeverChanges : Obligations.HaltedCoreNeverChanges :=
  fun _ hh cfg k => ⟨runSteps_halted k hh, hostStep_halted cfg hh, hostRun_halted cfg k hh⟩

/-! ### The three ends of a run -/

/-- A halt is final: more Steps change nothing (R147). -/
theorem HaltsAfter.runSteps_eq {k n : Nat} {s t : State} (h : HaltsAfter k s t) (hn : k ≤ n) :
    runSteps n s = .next t := by
  obtain ⟨hrun, ht, _⟩ := h
  obtain ⟨j, rfl⟩ := Nat.exists_eq_add_of_le hn
  rw [runSteps_add hrun, runSteps_halted j ht]

/-- A run of more Steps than a fault needs is that fault. -/
theorem FaultsAfter.runSteps_eq {k n : Nat} {s : State} {f : Fault} (h : FaultsAfter k s f) (hn : k < n) :
    runSteps n s = .fault f := by
  obtain ⟨u, hrun, hf⟩ := h
  obtain ⟨j, rfl⟩ := Nat.exists_eq_add_of_lt hn
  rw [Nat.add_assoc, runSteps_add hrun, runSteps_fault j hf]

/-- The core runs at every moment before a halt, so no halt comes before another. -/
theorem HaltsAfter.le {k k' : Nat} {s t t' : State} (h : HaltsAfter k s t) (h' : HaltsAfter k' s t') : k ≤ k' := by
  obtain ⟨_, _, hbefore⟩ := h
  obtain ⟨hrun', ht', _⟩ := h'
  by_contra hlt
  obtain ⟨u, hu, hur⟩ := hbefore k' (Nat.lt_of_not_le hlt)
  rw [hrun'] at hu
  cases hu
  rw [ht'] at hur
  cases hur

/-- Up to the moment of a fault the Steps complete, so no fault comes before another. -/
theorem FaultsAfter.le {k k' : Nat} {s : State} {f f' : Fault} (h : FaultsAfter k s f) (h' : FaultsAfter k' s f') :
    k ≤ k' := by
  obtain ⟨u, hrun, _⟩ := h
  by_contra hlt
  rw [h'.runSteps_eq (Nat.lt_of_not_le hlt)] at hrun
  cases hrun

theorem HaltsAfter.not_faultsAfter {k j : Nat} {s t : State} {f : Fault} (h : HaltsAfter k s t) :
    ¬ FaultsAfter j s f := by
  intro hf
  have hend : Host.Outcome.next t = .fault f :=
    (h.runSteps_eq (Nat.le_add_right k (j + 1))).symm.trans (hf.runSteps_eq (by omega))
  cases hend

theorem HaltsAfter.not_runsForever {k : Nat} {s t : State} (h : HaltsAfter k s t) : ¬ RunsForever s := by
  intro hforever
  obtain ⟨hrun, ht, _⟩ := h
  obtain ⟨u, hu, hur⟩ := hforever k
  rw [hrun] at hu
  cases hu
  rw [ht] at hur
  cases hur

theorem FaultsAfter.not_runsForever {k : Nat} {s : State} {f : Fault} (h : FaultsAfter k s f) : ¬ RunsForever s := by
  intro hforever
  obtain ⟨u, hu, _⟩ := hforever (k + 1)
  rw [h.runSteps_eq (Nat.lt_succ_self k)] at hu
  cases hu

/-- Either the run has an end, or its first `k` Steps complete with the core running before each of them. -/
theorem run_ends_or_completes (s : State) (k : Nat) :
    (∃ j t, HaltsAfter j s t) ∨ (∃ j f, FaultsAfter j s f) ∨
    ∃ u, runSteps k s = .next u ∧ ∀ j, j < k → ∃ v, runSteps j s = .next v ∧ v.halted = false := by
  induction k with
  | zero => exact .inr (.inr ⟨s, rfl, fun j hj => absurd hj (Nat.not_lt_zero j)⟩)
  | succ k ih =>
    rcases ih with hhalt | hfault | ⟨u, hrun, hbefore⟩
    · exact .inl hhalt
    · exact .inr (.inl hfault)
    · rcases step_outcomes u with hh | ⟨hr, t, hs⟩ | ⟨_, op, ir, left, hs⟩
      · exact .inl ⟨k, u, hrun, hh, hbefore⟩
      · refine .inr (.inr ⟨t, runSteps_succ_eq_next_iff.mpr ⟨u, hrun, hs⟩, fun j hj => ?_⟩)
        rcases Nat.lt_succ_iff_lt_or_eq.mp hj with hlt | rfl
        · exact hbefore j hlt
        · exact ⟨u, hrun, hr⟩
      · exact .inr (.inl ⟨k, _, u, hrun, hs⟩)

theorem run_has_an_end (s : State) : (∃ k t, HaltsAfter k s t) ∨ (∃ k f, FaultsAfter k s f) ∨ RunsForever s := by
  by_cases hhalt : ∃ k t, HaltsAfter k s t
  · exact .inl hhalt
  · by_cases hfault : ∃ k f, FaultsAfter k s f
    · exact .inr (.inl hfault)
    · refine .inr (.inr fun k => ?_)
      obtain ⟨_, _, hbefore⟩ := ((run_ends_or_completes s (k + 1)).resolve_left hhalt).resolve_left hfault
      exact hbefore k (Nat.lt_succ_self k)

/-- Settles O48: one of the ends is there (`run_has_an_end`), any two exclude each other, and two halts, or two faults,
are at one moment and so of one run. -/
theorem runHasExactlyOneEnd : Obligations.RunHasExactlyOneEnd := by
  intro s
  refine ⟨run_has_an_end s, fun _ _ _ _ h => h.not_faultsAfter, fun _ _ h => h.not_runsForever,
    fun _ _ h => h.not_runsForever, fun k t k' t' h h' => ?_, fun k f k' f' h h' => ?_⟩
  · obtain rfl : k = k' := Nat.le_antisymm (h.le h') (h'.le h)
    have hend : Host.Outcome.next t = .next t' := h.1.symm.trans h'.1
    cases hend
    exact ⟨rfl, rfl⟩
  · obtain rfl : k = k' := Nat.le_antisymm (h.le h') (h'.le h)
    have hend : Host.Outcome.fault f = .fault f' :=
      (h.runSteps_eq (Nat.lt_succ_self k)).symm.trans (h'.runSteps_eq (Nat.lt_succ_self k))
    cases hend
    exact ⟨rfl, rfl⟩

/-! ### The Run that reaches a halt -/

/-- A halt in `k + 1` Steps is one Step of a running core and then a halt in `k`. -/
theorem HaltsAfter.first_step {k : Nat} {s t : State} (h : HaltsAfter (k + 1) s t) :
    s.halted = false ∧ ∃ u, step s = .next u ∧ HaltsAfter k u t := by
  obtain ⟨hrun, ht, hbefore⟩ := h
  obtain ⟨_, h0, hr⟩ := hbefore 0 (Nat.succ_pos k)
  cases h0
  refine ⟨hr, ?_⟩
  cases hs : step s with
  | next u =>
    rw [runSteps_succ k hs] at hrun
    refine ⟨u, rfl, hrun, ht, fun j hj => ?_⟩
    have hlater := hbefore (j + 1) (Nat.succ_lt_succ hj)
    rwa [runSteps_succ j hs] at hlater
  | fault f =>
    rw [runSteps_fault k hs] at hrun
    cases hrun
  | refused r => exact absurd hs (step_ne_refused s r)

/-- Settles O47: by induction on the Steps to the halt, each of which the Run makes too (`hostRun_next`). -/
theorem runReachesTheHalt : Obligations.RunReachesTheHalt := by
  intro cfg k
  induction k with
  | zero =>
    intro s t h n _
    obtain ⟨hrun, ht, _⟩ := h
    cases hrun
    rw [hostRun_halted cfg n ht]
    exact ⟨rfl, rfl, rfl⟩
  | succ k ih =>
    intro s t h n hn
    obtain ⟨hr, u, hs, hu⟩ := h.first_step
    obtain ⟨n, rfl⟩ := Nat.exists_eq_add_of_le' (Nat.le_of_add_left_le hn)
    obtain ⟨hstate, hending, hreports⟩ := ih u t hu n (Nat.le_of_succ_le_succ hn)
    rw [hostRun_next cfg n hr hs]
    exact ⟨hstate, hending, congrArg Nat.succ hreports⟩

/-! ### A program without STA -/

/-- Where no cell holds a STA byte, no run changes a cell: none ever comes to be executed (R31). -/
theorem runSteps_sameCells_of_no_sta {k : Nat} {s t : State} (hno : ∀ x, opcodeField (Memory.read s.mem x) ≠ 0x4#4)
    (hrun : runSteps k s = .next t) : SameCells s t := by
  induction k generalizing t with
  | zero =>
    cases hrun
    exact fun _ => rfl
  | succ k ih =>
    obtain ⟨u, hrun', hs⟩ := runSteps_succ_eq_next_iff.mp hrun
    have hu : SameCells s u := ih hrun'
    cases hh : u.halted with
    | true =>
      rw [step_halted hh] at hs
      cases hs
      exact hu
    | false =>
      have hsta : u.opcodeAtPc ≠ 0x4#4 := by
        rw [State.opcodeAtPc, State.byteAtPc, hu]
        exact hno u.pc
      exact fun x => (step_next_sameCells hh hs hsta x).trans (hu x)

/-- Settles O46: the cells stay as they were, so every byte the run reaches is one of theirs, legal and no HLT. -/
theorem storelessProgramWithoutHltRunsForever : Obligations.StorelessProgramWithoutHltRunsForever := by
  intro s hr hcells
  have hsame : ∀ k t, runSteps k s = .next t → SameCells s t := fun k t =>
    runSteps_sameCells_of_no_sta fun x => by rcases hcells x with h | h | h | h <;> simp [h]
  refine ⟨runsForever_of_reached_opcodes hr fun k t hrun => ?_, hsame⟩
  rw [State.opcodeAtPc, State.byteAtPc, hsame k t hrun]
  rcases hcells t.pc with h | h | h | h <;> simp [h, legalOpcode]

/-! ### The observer's log of outputs -/

theorem outputLog_halted (k : Nat) {s : State} (h : s.halted = true) : outputLog k s = [] := by
  cases k with
  | zero => rfl
  | succ k => simp [outputLog, h]

theorem outputLog_fault (k : Nat) {s : State} {f : Fault} (hs : step s = .fault f) : outputLog (k + 1) s = [] := by
  simp [outputLog, hs]

/-- A Step that completes logs the `A` it found, if it is an OUT. -/
theorem outputLog_next (k : Nat) {s t : State} (hr : s.halted = false) (hs : step s = .next t) :
    outputLog (k + 1) s = if s.opcodeAtPc = 0xE#4 then s.a :: outputLog k t else outputLog k t := by
  have hir : opcodeField t.ir = s.opcodeAtPc := by rw [step_next_ir hr hs, State.opcodeAtPc]
  by_cases hout : s.opcodeAtPc = 0xE#4
  · simp [outputLog, hr, hs, hir, hout, step_next_a_of_out hr hs hout]
  · simp [outputLog, hr, hs, hir, hout]

/-- Settles O40: by induction on the Steps; an OUT puts the `A` it logs in `OUT`, and no other Step writes it. -/
theorem outHoldsTheLastLoggedOutput : Obligations.OutHoldsTheLastLoggedOutput := by
  intro k
  induction k with
  | zero =>
    intro s t hrun
    cases hrun
    rfl
  | succ k ih =>
    intro s t hrun
    rcases step_outcomes s with hh | ⟨hr, u, hs⟩ | ⟨_, op, ir, left, hs⟩
    · rw [runSteps_halted _ hh] at hrun
      cases hrun
      rw [outputLog_halted _ hh]
      rfl
    · rw [runSteps_succ k hs] at hrun
      rw [ih u t hrun, step_next_out hr hs, outputLog_next k hr hs]
      split
      · rw [List.getLastD_cons]
      · rfl
    · rw [runSteps_fault k hs] at hrun
      cases hrun

/-! ### What a run depends on -/

/-- Alike in all a program can depend on: the cells, `A`, `PC` and the latch. -/
structure AlikeForProgram (s u : State) : Prop where
  cells  : SameCells s u
  a      : u.a = s.a
  pc     : u.pc = s.pc
  halted : u.halted = s.halted

section
variable {s u : State} (h : AlikeForProgram s u)
include h

theorem AlikeForProgram.byteAtPc : u.byteAtPc = s.byteAtPc := by
  rw [State.byteAtPc, State.byteAtPc, h.pc, h.cells]

theorem AlikeForProgram.opcodeAtPc : u.opcodeAtPc = s.opcodeAtPc := by
  rw [State.opcodeAtPc, State.opcodeAtPc, h.byteAtPc]

theorem AlikeForProgram.operandAtPc : u.operandAtPc = s.operandAtPc := by
  rw [State.operandAtPc, State.operandAtPc, h.byteAtPc]

theorem AlikeForProgram.operandCell : u.operandCell = s.operandCell := by
  rw [State.operandCell, State.operandCell, h.operandAtPc, h.cells]

/-- A completed Step leaves the two states alike: what it writes in a cell, `A`, `PC` and the latch, it computes from
these and the byte they select. -/
theorem AlikeForProgram.step_next {t : State} (hr : s.halted = false) (hs : step s = .next t) :
    ∃ v, step u = .next v ∧ AlikeForProgram t v := by
  have hru : u.halted = false := h.halted.trans hr
  obtain ⟨v, hv⟩ := step_completes_of_legalOpcode (s := u) (h.opcodeAtPc ▸ legalOpcode_of_step_next hr hs)
  refine ⟨v, hv, fun x => ?_, ?_, ?_, ?_⟩
  · rw [step_next_read hru hv, step_next_read hr hs, h.opcodeAtPc, h.operandAtPc, h.a, h.cells]
  · rw [step_next_a hru hv, step_next_a hr hs, h.opcodeAtPc, h.operandCell, h.a]
  · rw [step_next_pc hru hv, step_next_pc hr hs, h.pc]
  · rw [Bool.eq_iff_iff, step_next_halted_iff hru hv, step_next_halted_iff hr hs, h.opcodeAtPc]

/-- A Step that faults does so from both states, with the same two values. -/
theorem AlikeForProgram.step_fault {op : Nibble} {ir : Byte} {left : State}
    (hs : step s = .fault (.decodeError op ir left)) : step u = .fault (.decodeError op ir (fetch u)) := by
  obtain ⟨hr, hillegal, hf⟩ := step_eq_fault_iff.mp hs
  cases hf
  rw [← h.opcodeAtPc] at hillegal
  rw [← h.opcodeAtPc, ← h.byteAtPc]
  exact step_eq_fault_iff.mpr ⟨h.halted.trans hr, hillegal, rfl⟩

end

/-- Settles O49: by induction on the Steps, over every two alike states; each Step leaves them alike and logs the same
output, or ends both runs by the same fault. -/
theorem onlyMemoryAccumulatorAndCounterMatter : Obligations.OnlyMemoryAccumulatorAndCounterMatter := by
  intro k
  induction k with
  | zero => exact fun s u hcells ha hpc hhalted => ⟨rfl, hcells, ha, hpc, hhalted⟩
  | succ k ih =>
    intro s u hcells ha hpc hhalted
    have h : AlikeForProgram s u := ⟨hcells, ha, hpc, hhalted⟩
    rcases step_outcomes s with hh | ⟨hr, t, hs⟩ | ⟨_, op, ir, left, hs⟩
    · have hhu : u.halted = true := hhalted.trans hh
      rw [outputLog_halted _ hh, outputLog_halted _ hhu, runSteps_halted _ hh, runSteps_halted _ hhu]
      exact ⟨rfl, hcells, ha, hpc, hhalted⟩
    · obtain ⟨v, hv, hcells', ha', hpc', hhalted'⟩ := h.step_next hr hs
      obtain ⟨hlog, hrest⟩ := ih t v hcells' ha' hpc' hhalted'
      rw [outputLog_next k hr hs, outputLog_next k (hhalted.trans hr) hv, h.opcodeAtPc, ha, hlog,
        runSteps_succ k hs, runSteps_succ k hv]
      exact ⟨rfl, hrest⟩
    · have hsu := h.step_fault hs
      rw [outputLog_fault k hs, outputLog_fault k hsu, runSteps_fault k hs, runSteps_fault k hsu]
      exact ⟨rfl, rfl, rfl⟩

end Sys2Proof.Machine
end

section
/-! PROOFS. The host's operations in sequence (spec/50_host_interface.md R96 to R108, spec/70_reset_and_hazards.md R137,
R139, spec/60_exceptions.md R131): the loop of Run, Reset beside LoadProgram, and a session with its record of the first
fault. -/
namespace Sys2Proof.Machine

/-! ### HLT and the halted core -/

/-- Settles O12: the byte is the encoder's, `exec_hlt` gives the whole next state, in which only the latch is written,
and a halted core takes no Step. -/
theorem hltSetsTheHaltLatch : Obligations.HltSetsTheHaltLatch := by
  intro ignored s
  refine ⟨encode_toNat (.hlt ignored), decode_encode (.hlt ignored), rfl, _, exec_hlt ignored s, rfl, rfl, rfl, rfl, rfl,
    rfl, rfl, fun _ => rfl, fun cfg => hostStep_halted cfg rfl, fun cfg n => hostRun_halted cfg n rfl, rfl⟩

/-! ### Power-on, Reset and LoadProgram -/

/-- Settles O33: the fields of `State.reset`, one by one. -/
theorem powerOnState : Obligations.PowerOnState :=
  ⟨rfl, rfl, fun _ => rfl, rfl, rfl, rfl, rfl, rfl, rfl, rfl, rfl⟩

/-- Reset carries memory along, so a write to it may come before or after. -/
theorem resetOp_setMem (s : State) (m : Memory) : resetOp (s.setMem m) = (resetOp s).setMem m := rfl

/-- Settles O35: by induction on the pairs, each of which is one write to memory (`resetOp_setMem`). -/
theorem loadAndResetCommute : Obligations.LoadAndResetCommute := by
  intro pairs
  induction pairs with
  | nil => exact fun _ => rfl
  | cons p rest ih =>
    intro s
    rw [loadProgram_cons, loadProgram_cons, ih, resetOp_setMem, resetOp_mem]

/-! ### The loop of Run -/

/-- Settles O36: the Run of bound 0, on a halted core, and after the two outcomes of a running core's Step. -/
theorem runFollowsItsLoop : Obligations.RunFollowsItsLoop :=
  fun cfg n _ => ⟨rfl, hostRun_halted cfg n, fun hr _ hs => hostRun_next cfg n hr hs,
    fun hr _ _ _ hs => hostRun_fault cfg n hr hs⟩

/-- Settles O37: by induction on the bound; a halted core ends the Run, an executed Step adds one report, and a fault
leaves the fetched state with the illegal byte in `IR`. -/
theorem runEndsByHaltFaultOrBound : Obligations.RunEndsByHaltFaultOrBound := by
  intro cfg n
  induction n with
  | zero => exact fun s => ⟨le_rfl, .inr rfl⟩
  | succ n ih =>
    intro s
    rcases step_outcomes s with hh | ⟨hr, t, hs⟩ | ⟨hr, op, ir, left, hs⟩
    · rw [hostRun_halted cfg _ hh]
      exact ⟨Nat.zero_le _, .inl hh⟩
    · obtain ⟨hbound, hending⟩ := ih t
      rw [hostRun_next cfg n hr hs]
      refine ⟨Nat.succ_le_succ hbound, ?_⟩
      cases hend : (hostRun cfg n t).ending with
      | done =>
        rw [hend] at hending
        exact hending.imp_right (congrArg Nat.succ)
      | fault op ir =>
        rw [hend] at hending
        exact hending
      | refused r =>
        rw [hend] at hending
        exact hending
    · rw [hostRun_fault cfg n hr hs]
      obtain ⟨_, _, hf⟩ := step_eq_fault_iff.mp hs
      cases hf
      exact ⟨Nat.succ_le_succ (Nat.zero_le n), hr, rfl, rfl⟩

/-- Settles O38: by induction on the first bound, along its Steps. -/
theorem runsCompose : Obligations.RunsCompose := by
  intro cfg m n
  induction m with
  | zero =>
    intro s
    rw [Nat.zero_add]
    exact ⟨fun _ => rfl, fun h => absurd rfl h⟩
  | succ m ih =>
    intro s
    rw [Nat.add_right_comm]
    rcases step_outcomes s with hh | ⟨hr, t, hs⟩ | ⟨hr, op, ir, left, hs⟩
    · rw [hostRun_halted cfg (m + n + 1) hh, hostRun_halted cfg (m + 1) hh]
      exact ⟨fun _ => by simp [hostRun_halted cfg n hh], fun _ => rfl⟩
    · obtain ⟨hdone, hfault⟩ := ih t
      rw [hostRun_next cfg (m + n) hr hs, hostRun_next cfg m hr hs]
      refine ⟨fun h => ?_, fun h => ?_⟩
      · rw [hdone h]
        rfl
      · rw [hfault h]
    · rw [hostRun_fault cfg (m + n) hr hs, hostRun_fault cfg m hr hs]
      exact ⟨fun h => (nomatch h), fun _ => rfl⟩

/-! ### The record of the first fault -/

theorem recordFault_some (first : Nibble × Byte) (op : Nibble) (ir : Byte) :
    recordFault (some first) op ir = some first := rfl

/-- Every operation but Reset hands the record on or gives it to `recordFault`. -/
theorem applyOp_firstFault (cfg : HostConfig) {op : HostOp} {m : Session} {first : Nibble × Byte} (hop : op ≠ .reset)
    (hm : m.firstFault = some first) : (applyOp cfg op m).firstFault = some first := by
  cases op with
  | reset => exact absurd rfl hop
  | loadProgram pairs => exact hm
  | step =>
    simp only [applyOp]
    split <;> simp [hm, recordFault_some]
  | run maxSteps =>
    simp only [applyOp]
    split <;> simp [hm, recordFault_some]

/-- Settles O41: by induction on the operations, each of which keeps a record that is there (`applyOp_firstFault`). -/
theorem firstFaultIsSticky : Obligations.FirstFaultIsSticky := by
  intro cfg ops
  induction ops with
  | nil => exact fun _ _ hm _ => hm
  | cons op rest ih =>
    intro m first hm hops
    obtain ⟨hop, hrest⟩ := List.forall_mem_cons.mp hops
    exact ih _ first (applyOp_firstFault cfg hop hm) hrest

/-! ### The machine without a program -/

/-- A machine with no program after `n` Steps from power-on; `MAR`, which no Step reads, is left out. -/
structure EmptyAfter (n : Nat) (s : State) : Prop where
  mem    : s.mem = []
  a      : s.a = 0
  b      : s.b = 0
  out    : s.out = 0
  pc     : s.pc.toNat = n % 16
  halted : s.halted = false

theorem EmptyAfter.byteAtPc {n : Nat} {s : State} (h : EmptyAfter n s) : s.byteAtPc = 0 := by
  rw [State.byteAtPc, h.mem]
  rfl

/-- Its Step faults on the byte 0, whose opcode is illegal, and leaves the fetched state. -/
theorem EmptyAfter.step_eq {n : Nat} {s : State} (h : EmptyAfter n s) :
    step s = .fault (.decodeError 0x0 0x00 (fetch s)) := by
  have hop : s.opcodeAtPc = 0x0#4 := by rw [State.opcodeAtPc, h.byteAtPc]; rfl
  refine step_eq_fault_iff.mpr ⟨h.halted, ?_, ?_⟩
  · rw [hop, not_legalOpcode_iff]
    exact .inl rfl
  · rw [hop, h.byteAtPc]
    rfl

theorem EmptyAfter.fetch {n : Nat} {s : State} (h : EmptyAfter n s) : EmptyAfter (n + 1) (fetch s) where
  mem := h.mem
  a := h.a
  b := h.b
  out := h.out
  pc := by rw [fetch_pc, nextAddr_toNat, h.pc, Nat.mod_add_mod]
  halted := h.halted

theorem applyOp_step_of_fault (cfg : HostConfig) {m : Session} {op : Nibble} {ir : Byte} {left : State}
    (hs : step m.state = .fault (.decodeError op ir left)) :
    applyOp cfg .step m = ⟨left, recordFault m.firstFault op ir⟩ := by
  simp [applyOp, hostStep_fault cfg hs, faultReport]

theorem applyOps_concat (cfg : HostConfig) (ops : List HostOp) (op : HostOp) (m : Session) :
    applyOps cfg (ops ++ [op]) m = applyOp cfg op (applyOps cfg ops m) := by
  induction ops generalizing m with
  | nil => rfl
  | cons first rest ih => exact ih _

/-- The session of a machine with no program after `n` Steps: each is the same fault, and the first of them is recorded. -/
theorem applyOps_steps_powerOn (cfg : HostConfig) (n : Nat) :
    EmptyAfter n (applyOps cfg (List.replicate n .step) Session.powerOn).state ∧
    (applyOps cfg (List.replicate (n + 1) .step) Session.powerOn).firstFault = some (0x0, 0x00) := by
  induction n with
  | zero =>
    have h : EmptyAfter 0 Session.powerOn.state := ⟨rfl, rfl, rfl, rfl, rfl, rfl⟩
    exact ⟨h, congrArg Session.firstFault (applyOp_step_of_fault cfg h.step_eq)⟩
  | succ n ih =>
    obtain ⟨h, hfirst⟩ := ih
    refine ⟨?_, ?_⟩
    · rw [List.replicate_succ', applyOps_concat, applyOp_step_of_fault cfg h.step_eq]
      exact h.fetch
    · rw [List.replicate_succ', applyOps_concat]
      exact applyOp_firstFault cfg (by simp) hfirst

/-- Settles O31: after `n` Steps the machine is empty with `PC = n` modulo 16 (`applyOps_steps_powerOn`), and the next
Step leaves the fetched state. -/
theorem emptyMachineFaultsAtEveryStep : Obligations.EmptyMachineFaultsAtEveryStep := by
  intro cfg n
  obtain ⟨h, hfirst⟩ := applyOps_steps_powerOn cfg n
  exact ⟨_, hostStep_fault cfg h.step_eq, h.fetch.pc, h.pc, h.byteAtPc, h.a, h.b, h.out, h.halted, hfirst⟩

end Sys2Proof.Machine
end

section
/-! PROOFS. Words and their reading (spec/30_encoding.md R52, R63, R64, spec/42_arithmetic.md R92): the sample words, the
ignored operand bits, the signed reading of the arithmetic, the byte of each slot, and the case of names. -/
namespace Sys2Proof.Machine

/-! ### Bytes -/

/-- Settles O3: sixteen fixed words, each decoded by computation. -/
theorem sampleWordsDecode : Obligations.SampleWordsDecode := by
  unfold Obligations.SampleWordsDecode
  decide

/-- Settles O15: the arithmetic unit's results are the sum and the difference of bit vectors, whose signed reading the
library gives. -/
theorem arithmeticReadAsSigned : Obligations.ArithmeticReadAsSigned := by
  intro a b
  rw [aluAdd_eq, aluSub_eq]
  exact ⟨BitVec.toInt_add a b, BitVec.toInt_sub⟩

/-! ### The byte a slot emits -/

/-- Pass 2 emits the byte the core's encoder gives the instruction with the mnemonic's opcode and the address modulo
16. -/
theorem emit_eq_encode {m : Mnemonic} {i : Instr} (address : Nat) (hop : (opcodeOf i).toNat = m.opcode)
    (harg : operandOf i = BitVec.ofNat 4 address) : emit m address = encode i := by
  apply BitVec.eq_of_toNat_eq
  have hlt : (opcodeOf i).toNat < 16 := (opcodeOf i).isLt
  rw [emit, mask8_natCast, BitVec.toNat_ofNat, encode, toNat_fields_append, harg, BitVec.toNat_ofNat, hop]
  omega

/-- A mnemonic without an operand emits its byte whatever tokens follow (D19). -/
theorem encodeItem_without_operand (cfg : AsmConfig) (labels : LabelTable) {m : Mnemonic} (args : List Text)
    (hm : m.takesOperand = false) : encodeItem cfg labels (.instr m args) = .ok (emit m 0) := by
  simp [encodeItem, hm]

theorem encodeItem_with_operand {cfg : AsmConfig} {labels : LabelTable} {m : Mnemonic} {token : Text} {n : Nat}
    (hm : m.takesOperand = true) (hres : resolveOperand cfg labels token = .ok n) :
    encodeItem cfg labels (.instr m [token]) = .ok (emit m n) := by
  simp [encodeItem, hm, hres]

theorem encodeItem_out (cfg : AsmConfig) (labels : LabelTable) (args : List Text) :
    encodeItem cfg labels (.instr .out args) = .ok 0xE0#8 :=
  encodeItem_without_operand cfg labels args rfl

theorem encodeItem_hlt (cfg : AsmConfig) (labels : LabelTable) (args : List Text) :
    encodeItem cfg labels (.instr .hlt args) = .ok 0xF0#8 :=
  encodeItem_without_operand cfg labels args rfl

theorem encodeItem_byte {cfg : AsmConfig} {labels : LabelTable} {token : Text} {n : Nat}
    (hlit : readLiteral token = some n) : encodeItem cfg labels (.byte [token]) = .ok (BitVec.ofNat 8 n) := by
  simp [encodeItem, hlit]

/-- A memory reference whose operand resolves to `n` emits the byte of its instruction at `n` modulo 16, as a number and
as the decoder reads it. -/
theorem encodeItem_memory_reference {cfg : AsmConfig} {labels : LabelTable} {m : Mnemonic} {token : Text} {n : Nat}
    {i : Instr} (hres : resolveOperand cfg labels token = .ok n) (hm : m.takesOperand = true)
    (hop : (opcodeOf i).toNat = m.opcode) (harg : operandOf i = BitVec.ofNat 4 n) :
    ∃ w, encodeItem cfg labels (.instr m [token]) = .ok w ∧ w.toNat = m.opcode * 16 + n % 16 ∧ decode w = .ok i := by
  refine ⟨emit m n, encodeItem_with_operand hm hres, ?_, ?_⟩
  · rw [emit_eq_encode n hop harg, encode, toNat_fields_append, hop, harg, BitVec.toNat_ofNat]
  · rw [emit_eq_encode n hop harg, decode_encode]

/-- Settles O52: one lemma for each form of slot; the four memory references are one form. -/
theorem slotEncoding : Obligations.SlotEncoding := by
  intro cfg labels token args n
  refine ⟨fun hlit => ⟨_, encodeItem_byte hlit, BitVec.toNat_ofNat n 8⟩, encodeItem_out cfg labels args,
    encodeItem_hlt cfg labels args, fun hres => ⟨?_, ?_, ?_, ?_⟩⟩
  · exact encodeItem_memory_reference hres rfl rfl rfl
  · exact encodeItem_memory_reference hres rfl rfl rfl
  · exact encodeItem_memory_reference hres rfl rfl rfl
  · exact encodeItem_memory_reference hres rfl rfl rfl

/-- Settles O6: the two bytes are the encoder's, the execute phases drop the field, and the assembler drops the tokens. -/
theorem ignoredOperandBitsChangeNothing : Obligations.IgnoredOperandBitsChangeNothing := by
  intro n s
  refine ⟨decode_encode (.out n), decode_encode (.hlt n), ?_, ?_,
    fun cfg labels args => ⟨encodeItem_out cfg labels args, encodeItem_hlt cfg labels args⟩⟩
  · rw [exec_out, exec_out]
  · rw [exec_hlt, exec_hlt]

/-! ### The case of mnemonics and labels -/

/-- The spelling of R60. -/
def Mnemonic.spelling : Mnemonic → Text
  | .lda => ['L', 'D', 'A']
  | .add => ['A', 'D', 'D']
  | .sub => ['S', 'U', 'B']
  | .sta => ['S', 'T', 'A']
  | .out => ['O', 'U', 'T']
  | .hlt => ['H', 'L', 'T']

theorem readMnemonic_eq_some_iff (token : Text) (m : Mnemonic) :
    readMnemonic token = some m ↔ token.map Char.toUpper = m.spelling := by
  constructor
  · intro h
    unfold readMnemonic at h
    split at h <;> cases h <;> assumption
  · intro h
    rw [readMnemonic, h]
    cases m <;> rfl

/-- A token is read by its upper case alone. -/
theorem readMnemonic_congr {token token' : Text} (h : token.map Char.toUpper = token'.map Char.toUpper) :
    readMnemonic token = readMnemonic token' := by
  rw [readMnemonic, h, readMnemonic]

theorem findLabel_cons_same (labels : LabelTable) (name : Text) (slot : Addr) :
    findLabel ((name, slot) :: labels) name = some slot :=
  if_pos rfl

theorem findLabel_cons_of_ne (labels : LabelTable) {name name' : Text} (slot : Addr) (h : name ≠ name') :
    findLabel ((name, slot) :: labels) name' = findLabel labels name' :=
  if_neg h

/-- Settles O53: mnemonics by `readMnemonic_eq_some_iff`, labels by the two cases of a lookup; `loop` and `Loop` are two
names. -/
theorem caseOfMnemonicsAndLabels : Obligations.CaseOfMnemonicsAndLabels := by
  refine ⟨fun token => ⟨?_, ?_, ?_, ?_, ?_, ?_⟩, fun _ _ => readMnemonic_congr, ?_, findLabel_cons_same,
    fun labels _ _ slot => findLabel_cons_of_ne labels slot, fun slot slot' => ?_⟩
  · exact readMnemonic_eq_some_iff token .lda
  · exact readMnemonic_eq_some_iff token .add
  · exact readMnemonic_eq_some_iff token .sub
  · exact readMnemonic_eq_some_iff token .sta
  · exact readMnemonic_eq_some_iff token .out
  · exact readMnemonic_eq_some_iff token .hlt
  · decide
  · rw [findLabel_cons_of_ne _ slot (by decide), findLabel_cons_same]

end Sys2Proof.Machine
end

section
/-! PROOFS. The assembler's two passes (spec/30_encoding.md section 3, R56 to R67): what the preprocessing drops, what
pass 1 records for the slots and the labels, the length of the program, and where loading puts its bytes. -/
namespace Sys2Proof.Machine

/-! ### The preprocessing -/

theorem stripComment_cons (c : Char) (rest : Text) :
    stripComment (c :: rest) = if c = ';' then [] else c :: stripComment rest := by
  by_cases hc : c = ';' <;> simp [stripComment, hc]

theorem stripComment_append_comment (line comment : Text) :
    stripComment (line ++ ';' :: comment) = stripComment line := by
  induction line with
  | nil => rfl
  | cons c rest ih => rw [List.cons_append, stripComment_cons, stripComment_cons, ih]

/-- The comment marker is no white space. -/
theorem stripComment_append_left (left text : Text) (hleft : left.all isBlank = true) :
    stripComment (left ++ text) = left ++ stripComment text := by
  induction left with
  | nil => rfl
  | cons c rest ih =>
    rw [List.all_cons, Bool.and_eq_true] at hleft
    obtain ⟨hc, hrest⟩ := hleft
    have hne : c ≠ ';' := by
      rintro rfl
      exact absurd hc (by decide)
    rw [List.cons_append, stripComment_cons, if_neg hne, ih hrest, List.cons_append]

/-- White space at the end of a line is either part of its comment or left alone. -/
theorem stripComment_append_right (line right : Text) (hright : right.all isBlank = true) :
    stripComment (line ++ right) = stripComment line ∨ stripComment (line ++ right) = stripComment line ++ right := by
  induction line with
  | nil =>
    have hkeep := stripComment_append_left right [] hright
    rw [List.append_nil] at hkeep
    exact .inr (hkeep.trans (List.append_nil right))
  | cons c rest ih =>
    rw [List.cons_append, stripComment_cons, stripComment_cons]
    split
    · exact .inl rfl
    · exact ih.imp (congrArg (c :: ·)) (congrArg (c :: ·))

theorem trim_append_left (left text : Text) (hleft : left.all isBlank = true) : trim (left ++ text) = trim text := by
  rw [trim, trim, List.dropWhile_append_of_pos (List.all_eq_true.mp hleft)]

theorem trim_append_right (text right : Text) (hright : right.all isBlank = true) : trim (text ++ right) = trim text := by
  have hblank : ∀ c ∈ right, isBlank c = true := List.all_eq_true.mp hright
  rw [trim, trim, List.dropWhile_append]
  split
  · next hempty => rw [List.isEmpty_iff.mp hempty, List.dropWhile_eq_nil_iff.mpr hblank]
  · rw [List.reverse_append, List.dropWhile_append_of_pos fun c hc => hblank c (List.mem_reverse.mp hc)]

theorem cleanLine_append_comment (line comment : Text) : cleanLine (line ++ ';' :: comment) = cleanLine line := by
  rw [cleanLine, cleanLine, stripComment_append_comment]

theorem cleanLine_surrounded {left right : Text} (line : Text) (hleft : left.all isBlank = true)
    (hright : right.all isBlank = true) : cleanLine (left ++ line ++ right) = cleanLine line := by
  rw [List.append_assoc, cleanLine, cleanLine, stripComment_append_left left _ hleft, trim_append_left left _ hleft]
  rcases stripComment_append_right line right hright with h | h
  · rw [h]
  · rw [h, trim_append_right _ right hright]

theorem cleanLine_blank {line : Text} (hline : line.all isBlank = true) : cleanLine line = [] := by
  have hempty := cleanLine_surrounded (right := []) [] hline rfl
  rwa [List.append_nil, List.append_nil] at hempty

/-- The assembler sees a program through its cleaned lines alone. -/
theorem assemble_congr (cfg : AsmConfig) {lines lines' : List Text} (h : cleanLines lines = cleanLines lines') :
    assemble cfg lines = assemble cfg lines' := by
  rw [assemble, h, assemble]

theorem cleanLines_append (before after : List Text) :
    cleanLines (before ++ after) = cleanLines before ++ cleanLines after := by
  rw [cleanLines, List.map_append, List.filter_append, cleanLines, cleanLines]

theorem cleanLines_cons_congr {line line' : Text} (after : List Text) (h : cleanLine line = cleanLine line') :
    cleanLines (line :: after) = cleanLines (line' :: after) := by
  rw [cleanLines, List.map_cons, h, cleanLines, List.map_cons]

theorem cleanLines_cons_blank {line : Text} (after : List Text) (h : cleanLine line = []) :
    cleanLines (line :: after) = cleanLines after := by
  simp [cleanLines, h]

/-- Settles O50: the cleaned lines are the same in each case. -/
theorem commentsAndBlanksAreIgnored : Obligations.CommentsAndBlanksAreIgnored := by
  intro cfg before after line comment left right
  refine ⟨assemble_congr cfg ?_, fun hleft hright => assemble_congr cfg ?_, fun hleft => assemble_congr cfg ?_⟩
  · rw [cleanLines_append, cleanLines_append, cleanLines_cons_congr after (cleanLine_append_comment line comment)]
  · rw [cleanLines_append, cleanLines_append, cleanLines_cons_congr after (cleanLine_surrounded line hleft hright)]
  · rw [cleanLines_append, cleanLines_append, cleanLines_cons_blank after (cleanLine_blank hleft)]

/-! ### Pass 1 -/

/-- Everything pass 1 does with its first line when it accepts the program: it binds a new legal label to the slot, or
reads an item for it. -/
theorem layoutFrom_cons_ok {slot : Nat} {labels table : LabelTable} {line : Text} {rest : List Text} {items : List Item}
    (h : layoutFrom slot labels (line :: rest) = .ok (items, table)) :
    slot < 16 ∧
    ((isLabelLine line = true ∧ legalLabel line.dropLast = true ∧ findLabel labels line.dropLast = none ∧
        layoutFrom slot (labels ++ [(line.dropLast, mask4 slot)]) rest = .ok (items, table)) ∨
     (isLabelLine line = false ∧ ∃ item items', readItem line = .ok item ∧ items = item :: items' ∧
        layoutFrom (slot + 1) labels rest = .ok (items', table))) := by
  rw [layoutFrom] at h
  cases hline : isLabelLine line with
  | true =>
    rw [hline, if_pos rfl] at h
    dsimp only at h
    split at h
    · cases h
    · next hlegal =>
      split at h
      · cases h
      · next hnew =>
        split at h
        · cases h
        · next hslot =>
          exact ⟨Nat.lt_of_not_le hslot, .inl ⟨rfl, by simpa using hlegal, by simpa using hnew, h⟩⟩
  | false =>
    rw [hline, if_neg Bool.false_ne_true] at h
    split at h
    · cases h
    · next item hitem =>
      split at h
      · cases h
      · next hslot =>
        split at h
        · cases h
        · next items' table' hrest =>
          cases h
          exact ⟨Nat.lt_of_not_le hslot, .inr ⟨rfl, item, items', hitem, rfl, hrest⟩⟩

/-- The slots a list of lines takes: one for each line that is no label. -/
def slotCount (lines : List Text) : Nat := (lines.filter (fun l => !isLabelLine l)).length

theorem slotCount_cons (line : Text) (rest : List Text) :
    slotCount (line :: rest) = if isLabelLine line = true then slotCount rest else slotCount rest + 1 := by
  by_cases hline : isLabelLine line = true <;> simp [slotCount, hline]

theorem layoutFrom_items_length {slot : Nat} {labels table : LabelTable} {lines : List Text} {items : List Item}
    (h : layoutFrom slot labels lines = .ok (items, table)) : items.length = slotCount lines := by
  induction lines generalizing slot labels items with
  | nil => cases h; rfl
  | cons line rest ih =>
    rcases layoutFrom_cons_ok h with ⟨_, ⟨hline, _, _, hrest⟩ | ⟨hline, item, items', _, rfl, hrest⟩⟩
    · rw [slotCount_cons, if_pos hline, ih hrest]
    · rw [slotCount_cons, hline, if_neg Bool.false_ne_true, List.length_cons, ih hrest]

/-- Pass 1 stops at the seventeenth slot (D14). -/
theorem layoutFrom_items_fit {slot : Nat} {labels table : LabelTable} {lines : List Text} {items : List Item}
    (hslot : slot ≤ 16) (h : layoutFrom slot labels lines = .ok (items, table)) : slot + items.length ≤ 16 := by
  induction lines generalizing slot labels items with
  | nil => cases h; exact hslot
  | cons line rest ih =>
    rcases layoutFrom_cons_ok h with ⟨hlt, ⟨_, _, _, hrest⟩ | ⟨_, item, items', _, rfl, hrest⟩⟩
    · exact ih hslot hrest
    · have hfit := ih hlt hrest
      rw [List.length_cons]
      omega

/-! ### The label table -/

/-- The line `name:` stands in the lines, the slots being counted from `slot` up to `n` there. -/
def DeclaredFrom (slot : Nat) (name : Text) (lines : List Text) (n : Nat) : Prop :=
  ∃ before after, lines = before ++ (name ++ [':']) :: after ∧ n = slot + slotCount before

theorem not_declaredFrom_nil (slot : Nat) (name : Text) (n : Nat) : ¬ DeclaredFrom slot name [] n := by
  rintro ⟨before, after, h, _⟩
  exact absurd h (by simp)

theorem declaredFrom_cons_iff (slot : Nat) (name line : Text) (rest : List Text) (n : Nat) :
    DeclaredFrom slot name (line :: rest) n ↔
      (line = name ++ [':'] ∧ n = slot) ∨
      DeclaredFrom (if isLabelLine line = true then slot else slot + 1) name rest n := by
  have hcount : ∀ before, slot + slotCount (line :: before) =
      (if isLabelLine line = true then slot else slot + 1) + slotCount before := by
    intro before
    rw [slotCount_cons]
    split <;> omega
  constructor
  · rintro ⟨before, after, hlines, hn⟩
    cases before with
    | nil => exact .inl ⟨(List.cons.inj hlines).1, hn⟩
    | cons first before =>
      obtain ⟨rfl, hrest⟩ := List.cons.inj hlines
      exact .inr ⟨before, after, hrest, hn.trans (hcount before)⟩
  · rintro (⟨rfl, rfl⟩ | ⟨before, after, rfl, rfl⟩)
    · exact ⟨[], rest, rfl, rfl⟩
    · exact ⟨line :: before, after, rfl, (hcount before).symm⟩

theorem isLabelLine_concat_colon (name : Text) : isLabelLine (name ++ [':']) = true := by
  simp [isLabelLine]

/-- A label line is its name and the colon. -/
theorem dropLast_eq_name_iff {line : Text} (hline : isLabelLine line = true) (name : Text) :
    line.dropLast = name ↔ line = name ++ [':'] := by
  constructor
  · rintro rfl
    exact (List.dropLast_append_getLast? ':' (by simpa [isLabelLine] using hline)).symm
  · rintro rfl
    exact List.dropLast_concat

theorem findLabel_append (labels labels' : LabelTable) (name : Text) :
    findLabel (labels ++ labels') name = (findLabel labels name).or (findLabel labels' name) := by
  induction labels with
  | nil => rfl
  | cons entry rest ih =>
    obtain ⟨n, slot⟩ := entry
    by_cases hn : n = name
    · subst hn
      rw [List.cons_append, findLabel_cons_same, findLabel_cons_same, Option.some_or]
    · rw [List.cons_append, findLabel_cons_of_ne _ _ hn, findLabel_cons_of_ne _ _ hn, ih]

/-- A new name at the end of the table is found there, and hides no other. -/
theorem findLabel_concat_eq_some_iff {labels : LabelTable} {new : Text} (v : Addr) (hnew : findLabel labels new = none)
    (name : Text) (slot : Addr) :
    findLabel (labels ++ [(new, v)]) name = some slot ↔
      findLabel labels name = some slot ∨ (new = name ∧ v = slot) := by
  rw [findLabel_append]
  by_cases hname : new = name
  · subst hname
    simp [hnew, findLabel_cons_same]
  · simp [hname, findLabel]

/-- What pass 1 adds to a table: each name declared in the lines, at its slot counted from where the lines begin. -/
theorem findLabel_layoutFrom {slot : Nat} {labels table : LabelTable} {lines : List Text} {items : List Item}
    (h : layoutFrom slot labels lines = .ok (items, table)) (name : Text) (bound : Addr) :
    findLabel table name = some bound ↔
      findLabel labels name = some bound ∨ DeclaredFrom slot name lines bound.toNat := by
  induction lines generalizing slot labels items with
  | nil =>
    cases h
    simp [not_declaredFrom_nil]
  | cons line rest ih =>
    rcases layoutFrom_cons_ok h with ⟨hlt, ⟨hline, _, hnew, hrest⟩ | ⟨hline, item, items', _, rfl, hrest⟩⟩
    · have hbound : mask4 (slot : Int) = bound ↔ bound.toNat = slot := by
        rw [mask4_natCast, ← BitVec.toNat_inj, BitVec.toNat_ofNat, Nat.mod_eq_of_lt hlt, eq_comm]
      rw [ih hrest, findLabel_concat_eq_some_iff _ hnew, dropLast_eq_name_iff hline, hbound, declaredFrom_cons_iff,
        if_pos hline, or_assoc]
    · have hno : line ≠ name ++ [':'] := by
        rintro rfl
        rw [isLabelLine_concat_colon] at hline
        cases hline
      rw [ih hrest, declaredFrom_cons_iff, hline, if_neg Bool.false_ne_true]
      simp [hno]

/-- Settles O51: the two facts about pass 1, from slot 0 and the empty table. -/
theorem labelIsBoundToItsSlot : Obligations.LabelIsBoundToItsSlot := by
  intro lines items labels h
  refine ⟨layoutFrom_items_length h, fun name slot => ?_⟩
  rw [findLabel_layoutFrom h, DeclaredFrom]
  simp [findLabel, slotCount]

/-! ### The assembled program -/

/-- An assembled program is the two passes, both without an error. -/
theorem assemble_eq_ok {cfg : AsmConfig} {lines : List Text} {p : AssembledProgram} (h : assemble cfg lines = .ok p) :
    ∃ items, layoutFrom 0 [] (cleanLines lines) = .ok (items, p.labels) ∧
      encodeItems cfg p.labels items = .ok p.bytes := by
  unfold assemble at h
  split at h
  · cases h
  · next items labels hlayout =>
    split at h
    · cases h
    · next bytes hbytes =>
      cases h
      exact ⟨items, hlayout, hbytes⟩

/-- Pass 2 emits one byte a slot (R56). -/
theorem encodeItems_length {cfg : AsmConfig} {labels : LabelTable} {items : List Item} {bytes : List Byte}
    (h : encodeItems cfg labels items = .ok bytes) : bytes.length = items.length := by
  induction items generalizing bytes with
  | nil => cases h; rfl
  | cons item rest ih =>
    rw [encodeItems] at h
    split at h
    · cases h
    · split at h
      · cases h
      · next ws hws =>
        cases h
        rw [List.length_cons, List.length_cons, ih hws]

/-- Settles O54: one item a line that is no label and at most 16 of them by pass 1, one byte an item by pass 2. -/
theorem assembledProgramFits : Obligations.AssembledProgramFits := by
  intro cfg lines p h
  obtain ⟨items, hlayout, hbytes⟩ := assemble_eq_ok h
  rw [encodeItems_length hbytes]
  exact ⟨layoutFrom_items_length hlayout, by simpa using layoutFrom_items_fit (Nat.zero_le 16) hlayout⟩

/-! ### Loading -/

/-- Bytes loaded from `slot` on, where they fit: cell `x` holds byte `x - slot`, if there is one. -/
theorem read_loadProgram_slotPairs {slot : Nat} {bytes : List Byte} (s : State) (hfit : slot + bytes.length ≤ 16)
    (x : Addr) :
    Memory.read (loadProgram (slotPairs slot bytes) s).mem x =
      if slot ≤ x.toNat then (bytes[x.toNat - slot]?).getD (Memory.read s.mem x) else Memory.read s.mem x := by
  induction bytes generalizing slot s with
  | nil => simp [slotPairs, loadProgram]
  | cons w rest ih =>
    rw [List.length_cons] at hfit
    rw [slotPairs, loadProgram_cons, ih _ (by omega), State.setMem_mem, Memory.read_memWrite,
      Nat.mod_eq_of_lt (show slot < 16 by omega), BitVec.ofNat_toNat, BitVec.setWidth_eq]
    rcases Nat.lt_trichotomy slot x.toNat with hlt | heq | hgt
    · have hle : slot + 1 ≤ x.toNat := hlt
      have hindex : x.toNat - slot = x.toNat - (slot + 1) + 1 := by omega
      rw [if_pos hle, if_neg hlt.ne, if_pos hlt.le, hindex, List.getElem?_cons_succ]
    · rw [if_neg (by omega), if_pos heq, if_pos heq.le, heq, Nat.sub_self]
      rfl
    · rw [if_neg (by omega), if_neg hgt.ne', if_neg (by omega)]

/-- Settles O55: an assembled program fits (`assembledProgramFits`), and its pairs begin at cell 0. -/
theorem assembledProgramLoadsInOrder : Obligations.AssembledProgramLoadsInOrder := by
  intro cfg lines p s h x
  have hfit : p.bytes.length ≤ 16 := (assembledProgramFits cfg lines p h).2
  rw [read_loadProgram_slotPairs s (by simpa using hfit), if_pos (Nat.zero_le _), Nat.sub_zero]

end Sys2Proof.Machine
end
